-- ==== Sys2Proof/Config.lean ====
section
/-! DEFINITION. The default of the port width `INT_W` (rule R4) and the free values of the response fields at an edge that
accepts no command (rule R91, I13). -/

namespace Sys2Proof

/-- The default of the parameter `INT_W`, the width of the two operand ports and of `rsp_val` (R4: default 32). Every type that
holds a port value, and every operation on one, takes the width as its argument `w`; a type written without it is the type at
this width (log entry 1). -/
abbrev Config.intW : Nat := 32

/-- The default meets the constraint R4 puts on `INT_W`. -/
theorem Config.nine_le_intW : 9 ≤ Config.intW := by decide

/-- Free value: `rsp_err` after the `n`-th edge that accepts no command, given the value it had (R91, I13; log entry 5). -/
opaque Config.idleErr (n : Nat) (last : BitVec 3) : BitVec 3

/-- Free value: `rsp_kind` after the `n`-th edge that accepts no command, given the value it had (R91, I13; log entry 5). -/
opaque Config.idleKind (n : Nat) (last : BitVec 2) : BitVec 2

/-- Free value: `rsp_val`, at any port width, after the `n`-th edge that accepts no command, given the value it had (R91, I13;
log entry 5). -/
opaque Config.idleVal {w : Nat} (n : Nat) (last : BitVec w) : BitVec w

/-- Free value: `rsp_done` after the `n`-th edge that accepts no command, given the value it had (R91, I13; log entry 5). -/
opaque Config.idleDone (n : Nat) (last : Bool) : Bool

end Sys2Proof
end

