-- ==== Sys2Proof/Word.lean ====
section
/-! DEFINITION. The words of the block and the plain names its rules use: sequence numbers, port words, operand kinds, the
command triple, error names and result kinds. -/

namespace Sys2Proof

/-- A sequence number: an integer in [0, 256) held in 8 bits (R2). -/
abbrev SeqNum := BitVec 8

/-- The contents of an operand port or of `rsp_val`, `w` bits wide with `w` the parameter `INT_W` (R4). -/
abbrev Word (w : Nat := Config.intW) := BitVec w

/-- The kind tag of an operand (R40): a sequence number or a plain integer. -/
inductive Kind where
  | seq
  | int
  deriving DecidableEq, Repr

/-- An operand as a command presents it: its kind tag and its port value (R38, R40). -/
structure Operand (w : Nat := Config.intW) where
  kind : Kind
  val : Word w
  deriving DecidableEq, Repr

/-- The command triple `(cmd, a_val, b_val)` (R38). -/
structure Command (w : Nat := Config.intW) where
  cmd : BitVec 8
  aVal : Word w
  bVal : Word w
  deriving DecidableEq, Repr

/-- The error codes of R92 by name (`OK` is no error and is not among them). -/
inductive CmdError where
  /-- Reserved bits or a reserved `op` (R46, R47). -/
  | illegalCmd
  /-- A used operand's kind differs from the required kind (R42). -/
  | typeError
  /-- A used `SEQ` operand has a nonzero bit above bit 7 (R44). -/
  | notNormalized
  /-- `SR_LOADED = 0` at `SRNEXT` or `SRRESTART` (R80, R81). -/
  | noRange
  deriving DecidableEq, Repr

/-- The result kinds of R90. -/
inductive ResultKind where
  | none
  | seq
  | int
  | bool
  deriving DecidableEq, Repr

end Sys2Proof
end

