-- ==== Sys2Proof/Syntax.lean ====
section
/-! DEFINITION. The commands of the opcode map (R41), one constructor per row of spec/opcode_table.json. Every constructor
carries both operands as the command presents them, kind tags included, also where the operation ignores one (R45). -/

namespace Sys2Proof

/-- A command with its operands A and B, at port width `w` (R4). -/
inductive Instr (w : Nat := Config.intW) where
  /-- `NORM`: construct a sequence number from an integer (R54). B is ignored. -/
  | norm (a b : Operand w)
  /-- `DIST`: signed distance (R55). -/
  | dist (a b : Operand w)
  /-- `ADD`: step forward (R56). -/
  | add (a b : Operand w)
  /-- `SUBN`: step backward (R57). -/
  | subn (a b : Operand w)
  /-- `LT` (R67). -/
  | lt (a b : Operand w)
  /-- `LE` (R68). -/
  | le (a b : Operand w)
  /-- `GT` (R69). -/
  | gt (a b : Operand w)
  /-- `GE` (R70). -/
  | ge (a b : Operand w)
  /-- `EQ` (R71). -/
  | eq (a b : Operand w)
  /-- `SRSTART`: create `srange(start, end)` (R79). -/
  | srstart (a b : Operand w)
  /-- `SRNEXT`: take the next element (R80). Both operands are ignored. -/
  | srnext (a b : Operand w)
  /-- `SRRESTART`: iterate again from the start (R81). Both operands are ignored. -/
  | srrestart (a b : Operand w)
  deriving DecidableEq, Repr

/-- Operand A of a command. -/
def Instr.opA {w : Nat} : Instr w → Operand w
  | .norm a _ | .dist a _ | .add a _ | .subn a _ | .lt a _ | .le a _ | .gt a _ | .ge a _ | .eq a _
  | .srstart a _ | .srnext a _ | .srrestart a _ => a

/-- Operand B of a command. -/
def Instr.opB {w : Nat} : Instr w → Operand w
  | .norm _ b | .dist _ b | .add _ b | .subn _ b | .lt _ b | .le _ b | .gt _ b | .ge _ b | .eq _ b
  | .srstart _ b | .srnext _ b | .srrestart _ b => b

end Sys2Proof
end

