-- ==== Sys2Proof/WellFormed.lean ====
section
/-! DEFINITION. A command is well formed when the kinds of the operands it uses are the kinds R42 requires. A command that is
not well formed is a `TYPE_ERROR`. Port values are not constrained: an unnormalised `SEQ` value is a legal word that answers
`NOT_NORMALIZED` (R44). -/

namespace Sys2Proof

/-- The kind column of R42, constructor by constructor; an ignored operand is not checked (R45). -/
def Instr.wellFormed {w : Nat} : Instr w → Bool
  | .norm a _ => decide (a.kind = .int)
  | .dist a b => decide (a.kind = .seq ∧ b.kind = .seq)
  | .add a b => decide (a.kind = .seq ∧ b.kind = .int)
  | .subn a b => decide (a.kind = .seq ∧ b.kind = .int)
  | .lt a b => decide (a.kind = .seq ∧ b.kind = .seq)
  | .le a b => decide (a.kind = .seq ∧ b.kind = .seq)
  | .gt a b => decide (a.kind = .seq ∧ b.kind = .seq)
  | .ge a b => decide (a.kind = .seq ∧ b.kind = .seq)
  | .eq a b => decide (a.kind = .seq ∧ b.kind = .seq)
  | .srstart a b => decide (a.kind = .seq ∧ b.kind = .seq)
  | .srnext _ _ => true
  | .srrestart _ _ => true

end Sys2Proof
end

