-- ==== Sys2Proof/Decode.lean ====
section
/-! DEFINITION. The decoder of R50, total on every command triple and rejecting by error name, and the encoder, written from
the command format of R38. -/

namespace Sys2Proof

/-- `cmd[7:6]`, the reserved field (R38). -/
def cmdRsv {w : Nat} (c : Command w) : BitVec 2 := c.cmd.extractLsb' 6 2

/-- `cmd[3:0]`, the operation code (R38). -/
def cmdOp {w : Nat} (c : Command w) : BitVec 4 := c.cmd.extractLsb' 0 4

/-- The kind a tag bit names (R40: `0` = `SEQ`, `1` = `INT`). -/
def kindOfBit (bit : BitVec 1) : Kind := if bit = 0 then .seq else .int

/-- The tag bit of a kind (R40). -/
def bitOfKind : Kind → BitVec 1
  | .seq => 0
  | .int => 1

/-- Operand A: kind tag `cmd[4]`, value `a_val` (R38). -/
def cmdA {w : Nat} (c : Command w) : Operand w := ⟨kindOfBit (c.cmd.extractLsb' 4 1), c.aVal⟩

/-- Operand B: kind tag `cmd[5]`, value `b_val` (R38). -/
def cmdB {w : Nat} (c : Command w) : Operand w := ⟨kindOfBit (c.cmd.extractLsb' 5 1), c.bVal⟩

/-- The operation an `op` value selects (R41); none for the reserved values 0xC to 0xF (R46). -/
def instrOfOp {w : Nat} (op : Nat) (a b : Operand w) : Option (Instr w) :=
  match op with
  | 0x0 => some (.norm a b)
  | 0x1 => some (.dist a b)
  | 0x2 => some (.add a b)
  | 0x3 => some (.subn a b)
  | 0x4 => some (.lt a b)
  | 0x5 => some (.le a b)
  | 0x6 => some (.gt a b)
  | 0x7 => some (.ge a b)
  | 0x8 => some (.eq a b)
  | 0x9 => some (.srstart a b)
  | 0xA => some (.srnext a b)
  | 0xB => some (.srrestart a b)
  | _ => none

/-- `REQ_KINDS[op]` (R42, R50): the kinds required of A and B; none where the operand is not used. -/
def reqKinds (op : Nat) : Option Kind × Option Kind :=
  match op with
  | 0x0 => (some .int, none)
  | 0x1 => (some .seq, some .seq)
  | 0x2 => (some .seq, some .int)
  | 0x3 => (some .seq, some .int)
  | 0x4 => (some .seq, some .seq)
  | 0x5 => (some .seq, some .seq)
  | 0x6 => (some .seq, some .seq)
  | 0x7 => (some .seq, some .seq)
  | 0x8 => (some .seq, some .seq)
  | 0x9 => (some .seq, some .seq)
  | _ => (none, none)

/-- Whether an operand's kind meets a requirement; an unused operand's kind is not checked (R45). -/
def kindMeets (req : Option Kind) (k : Kind) : Bool :=
  match req with
  | none => true
  | some r => decide (k = r)

/-- The decoder of R50: reserved bits, reserved `op`, then the kinds of A and B. -/
def decode {w : Nat} (c : Command w) : Except CmdError (Instr w) :=
  if cmdRsv c ≠ 0 then .error .illegalCmd
  else
    match instrOfOp (cmdOp c).toNat (cmdA c) (cmdB c) with
    | none => .error .illegalCmd
    | some i =>
      if kindMeets (reqKinds (cmdOp c).toNat).1 (cmdA c).kind = false then .error .typeError
      else if kindMeets (reqKinds (cmdOp c).toNat).2 (cmdB c).kind = false then .error .typeError
      else .ok i

/-- The `op` value of a command (R41). -/
def opOfInstr {w : Nat} : Instr w → BitVec 4
  | .norm _ _ => 0x0
  | .dist _ _ => 0x1
  | .add _ _ => 0x2
  | .subn _ _ => 0x3
  | .lt _ _ => 0x4
  | .le _ _ => 0x5
  | .gt _ _ => 0x6
  | .ge _ _ => 0x7
  | .eq _ _ => 0x8
  | .srstart _ _ => 0x9
  | .srnext _ _ => 0xA
  | .srrestart _ _ => 0xB

/-- The command triple of a command: `rsv = 0b00`, the kind tags, `op`, and the two port values (R38). Every operand bit is
kept, also those the operation ignores; the assembler, which clears them (R53), is in Machine/Assembler.lean. -/
def encode {w : Nat} (i : Instr w) : Command w :=
  { cmd := (0#2 ++ bitOfKind i.opB.kind ++ bitOfKind i.opA.kind ++ opOfInstr i : BitVec 8)
    aVal := i.opA.val
    bVal := i.opB.val }

/-- The command triple whose bits are the number `w`, numbered as spec/opcode_table.json numbers them: the 8 bits of `cmd`
first, then `a_val`, then `b_val`; bits from `nbits` up are 0. DESIGN CHOICE, safe (log entry 7): the spec gives the triple
no order in a longer number. -/
def commandOfNumber (nbits w : Nat) : Command :=
  let v := w % 2 ^ nbits
  { cmd := BitVec.ofNat 8 v
    aVal := BitVec.ofNat Config.intW (v / 2 ^ 8)
    bVal := BitVec.ofNat Config.intW (v / 2 ^ (8 + Config.intW)) }

/-- The command the decoder reads from the bits of `w`, none where it rejects. -/
def decodeTableWord (nbits w : Nat) : Option Instr :=
  match decode (commandOfNumber nbits w) with
  | .ok i => some i
  | .error _ => none

end Sys2Proof
end

