-- ==== Sys2Proof/Machine/Flags.lean ====
section
/-! DEFINITION. The values the commands compute: mod-256 construction and steps, the signed representative and the distance,
the five predicates, and how each goes onto the `INT_W`-bit result port. The block has no flag register (R19); a predicate's
outcome is a `BOOL` result. Arithmetic is on unbounded integers and narrowed at the end (R7). -/

namespace Sys2Proof.Machine

/-- `n mod 256`, the remainder in [0, 256) also for a negative `n` (R7), as a sequence number. -/
def modSeq (n : Int) : SeqNum := BitVec.ofInt 8 n

/-- `signed8(s)`, the signed representative in [-128, 128) (R8). -/
def signed8 (x : SeqNum) : Int := if 128 ≤ x.toNat then (x.toNat : Int) - 256 else (x.toNat : Int)

/-- `distance(a, b) = signed8(a) − signed8(b)`, not reduced modulo 256 (R55, C1). -/
def distance (a b : SeqNum) : Int := signed8 a - signed8 b

/-- `(a + n) mod 256` (R56). -/
def stepForward (a : SeqNum) (n : Int) : SeqNum := modSeq ((a.toNat : Int) + n)

/-- `(a − n) mod 256` (R57). -/
def stepBackward (a : SeqNum) (n : Int) : SeqNum := modSeq ((a.toNat : Int) - n)

/-- `a < b` via the distance (R67). -/
def seqLt (a b : SeqNum) : Bool := decide (distance a b < 0)

/-- `a <= b` via the distance (R68). -/
def seqLe (a b : SeqNum) : Bool := decide (distance a b ≤ 0)

/-- `a > b` via the distance (R69). -/
def seqGt (a b : SeqNum) : Bool := decide (0 < distance a b)

/-- `a >= b` via the distance (R70). -/
def seqGe (a b : SeqNum) : Bool := decide (0 ≤ distance a b)

/-- Raw equality of two sequence numbers (R71). -/
def seqEq (a b : SeqNum) : Bool := decide (a = b)

/-- `zext_W(s)` of a sequence number, at any port width (R90). -/
def seqBits {w : Nat} (x : SeqNum) : BitVec w := x.setWidth w

/-- `sext_W` of the 9-bit two's-complement value of a distance, at any port width (R55, R65). -/
def distBits {w : Nat} (d : Int) : BitVec w := (BitVec.ofInt 9 d).signExtend w

/-- `zext_W` of a predicate's outcome, at any port width (R90). -/
def boolBits {w : Nat} (p : Bool) : BitVec w := (BitVec.ofBool p).setWidth w

end Sys2Proof.Machine
end

