-- ==== Sys2Proof/Machine/State.lean ====
section
/-! DEFINITION. The registers of the block (R15) as plain data, in a record of their own, and the state of the model: that record
with two fields that make a step a function of the state (what the client drives at the coming edges, and the count behind the
free values). The port width is the argument `w`. The registers after reset are R24's. -/

namespace Sys2Proof.Machine

/-- The response register `RSP` (R15, R91), each field with the width of its port. -/
structure Response (w : Nat := Config.intW) where
  /-- `rsp_valid` -/
  valid : Bool
  /-- `rsp_err[2:0]`, a code of R92 while `rsp_valid = 1` -/
  err : BitVec 3
  /-- `rsp_kind[1:0]`, a code of R90 while `rsp_valid = 1` -/
  kind : BitVec 2
  /-- `rsp_val[INT_W-1:0]` -/
  val : Word w
  /-- `rsp_done` -/
  done : Bool
  deriving DecidableEq, Repr

/-- What the client drives on the request port at one rising edge of `clk` (R39, R105). -/
structure Edge (w : Nat := Config.intW) where
  rst : Bool
  reqValid : Bool
  command : Command w
  deriving DecidableEq, Repr

/-- The registers of the block: R15's state record, these fields and no others. -/
structure Registers (w : Nat := Config.intW) where
  /-- `SR_START` (R15, R16) -/
  srStart : SeqNum
  /-- `SR_END` (R15, R16) -/
  srEnd : SeqNum
  /-- `SR_CUR` (R15, R16) -/
  srCur : SeqNum
  /-- `SR_LOADED` (R15, R17) -/
  srLoaded : Bool
  /-- `STICKY_ERR` (R15, R18), the level of the pin `sticky_err` -/
  stickyErr : Bool
  /-- `RSP`, the response register (R15, R91) -/
  rsp : Response w
  deriving DecidableEq, Repr

/-- The state of the model: the registers of the block, and the two fields that make a step a function of the state. -/
structure State (w : Nat := Config.intW) extends Registers w where
  /-- The MODEL's own: what the client drives at the coming edges, nearest first (log entry 2). -/
  inputs : List (Edge w)
  /-- The MODEL's own: how many edges without an accepted command have passed (log entry 5). -/
  idleCount : Nat
  deriving DecidableEq, Repr

/-- The reasons a step can stop the machine: none. Nobody raises one, so the type is empty: misuse is answered with an error
response, which is a next state (R93, R98), and the block is always ready (R39). Unsafe if some implementation could stop
(log entry 8). -/
inductive Fault where
  deriving DecidableEq, Repr

/-- The reasons a command has no meaning in the model. -/
inductive Refusal where
  /-- Raised by an arm of `exec` for a command without a meaning: no arm does, since every command has one. Safe. -/
  | notModelled (mnemonic : String)
  deriving DecidableEq, Repr

/-- The registers right after reset, at any port width (R24). -/
def Registers.reset (w : Nat) : Registers w :=
  { srStart := 0
    srEnd := 0
    srCur := 0
    srLoaded := false
    stickyErr := false
    rsp := { valid := false, err := 0, kind := 0, val := 0, done := false } }

/-- The state right after reset, at any port width: every register at R24's value. The model's own fields start empty: nothing
driven, no idle edge passed (DESIGN CHOICE, log entries 2 and 5). -/
def State.resetAt (w : Nat) : State w :=
  { toRegisters := Registers.reset w
    inputs := []
    idleCount := 0 }

/-- The state right after reset, at the default port width. -/
def State.reset : State := State.resetAt Config.intW

end Sys2Proof.Machine
end

