-- ==== Sys2Proof/Machine/Ops.lean ====
section
/-! DEFINITION. The named operations on the registers: `respond` and `raise` (R89, R93), the writes of the iterator registers
(R79 to R81), and what an edge does that accepts no command (R91, R105). The block has no memory (R28), no trap entry and no
trap return (R98, R99): `raise` is the whole effect of an error. -/

namespace Sys2Proof.Machine

/-- `rsp_err` of a command that succeeds: `OK` (R92). -/
def okCode : BitVec 3 := 0

/-- The code of an error (R92). -/
def errCode : CmdError → BitVec 3
  | .illegalCmd => 1
  | .typeError => 2
  | .notNormalized => 3
  | .noRange => 4

/-- The code of a result kind (R90). -/
def kindCode : ResultKind → BitVec 2
  | .none => 0
  | .seq => 1
  | .int => 2
  | .bool => 3

/-- `respond(kind, val, done)`: load the response register, with `rsp_err = OK` (R89). -/
def respond {w : Nat} (kind : ResultKind) (val : Word w) (done : Bool) (s : State w) : State w :=
  { s with rsp := { valid := true, err := okCode, kind := kindCode kind, val := val, done := done } }

/-- `raise E`, the one way an error is taken: the error response and `STICKY_ERR <- 1`, nothing else (R93). -/
def raise {w : Nat} (e : CmdError) (s : State w) : State w :=
  { s with
    stickyErr := true
    rsp := { valid := true, err := errCode e, kind := kindCode .none, val := 0, done := false } }

/-- Load the iterator registers with `srange(start, stop)`, at its first element (R79). -/
def loadRange {w : Nat} (start stop : SeqNum) (s : State w) : State w :=
  { s with srStart := start, srEnd := stop, srCur := start, srLoaded := true }

/-- Write `SR_CUR` (R80, R81). -/
def setCur {w : Nat} (x : SeqNum) (s : State w) : State w := { s with srCur := x }

/-- The next element of the held sequence: done when `SR_CUR = SR_END`, else the element at `SR_CUR`, with `SR_CUR` advanced
past it (R80). -/
def takeElement {w : Nat} (s : State w) : State w :=
  if s.srCur = s.srEnd then respond .none 0 true s
  else respond .seq (seqBits s.srCur) false (setCur (stepForward s.srCur 1) s)

/-- An edge with `rst = 1`: every register takes its reset value (R105); the model's own fields are not registers. -/
def resetEdge {w : Nat} (s : State w) : State w :=
  { s with toRegisters := Registers.reset w }

/-- An edge that accepts no command: `rsp_valid` becomes 0 and the other response fields hold no meaning (R39, R91), so they
take free values (I13, log entry 5). -/
def idleEdge {w : Nat} (s : State w) : State w :=
  { s with
    rsp :=
      { valid := false
        err := Config.idleErr s.idleCount s.rsp.err
        kind := Config.idleKind s.idleCount s.rsp.kind
        val := Config.idleVal s.idleCount s.rsp.val
        done := Config.idleDone s.idleCount s.rsp.done }
    idleCount := s.idleCount + 1 }

/-- An edge at which the client drives nothing: `rst = 0` and `req_valid = 0` (log entry 3). -/
def quietEdge {w : Nat} : Edge w := { rst := false, reqValid := false, command := { cmd := 0, aVal := 0, bVal := 0 } }

/-- What the client drives at the coming edge: the first entry, or nothing when none is left (log entry 3). -/
def currentEdge {w : Nat} (s : State w) : Edge w :=
  match s.inputs with
  | [] => quietEdge
  | e :: _ => e

/-- The state with the coming edge's entry consumed. -/
def dropInput {w : Nat} (s : State w) : State w := { s with inputs := s.inputs.tail }

/-- The state with an entry put before the coming edges. -/
def pushInput {w : Nat} (e : Edge w) (s : State w) : State w := { s with inputs := e :: s.inputs }

end Sys2Proof.Machine
end

