-- ==== Sys2Proof/Machine/Operands.lean ====
section
/-! DEFINITION. Every operand form the commands have: a `SEQ` pair, a `SEQ` with an `INT` count, an `INT` alone, and none with
a held sequence required. Each form checks in the order of R94: kind of A, kind of B, normalisation of A, normalisation of B,
held sequence. -/

namespace Sys2Proof.Machine

/-- `v[INT_W-1:8]`, the bits above the sequence number, at any port width (R12). -/
def upperBits {w : Nat} (v : BitVec w) : BitVec (w - 8) := v.extractLsb' 8 (w - 8)

/-- Whether a port value is a sequence number: no bit above bit 7 is set (R12, R44). -/
def isNormalized {w : Nat} (v : BitVec w) : Bool := decide (upperBits v = 0)

/-- `v[7:0]`, the sequence number of a normalised operand (R12). -/
def seqOf {w : Nat} (v : BitVec w) : SeqNum := v.extractLsb' 0 8

/-- `int_W(v)`, the integer of an `INT` operand (R43). -/
def intOf {w : Nat} (v : BitVec w) : Int := v.toInt

/-- The operands of `DIST`, the predicates and `SRSTART`: two sequence numbers (R42, R44, R94). -/
def readSeqSeq {w : Nat} (a b : Operand w) : Except CmdError (SeqNum × SeqNum) :=
  if a.kind ≠ .seq then .error .typeError
  else if b.kind ≠ .seq then .error .typeError
  else if isNormalized a.val = false then .error .notNormalized
  else if isNormalized b.val = false then .error .notNormalized
  else .ok (seqOf a.val, seqOf b.val)

/-- The operands of `ADD` and `SUBN`: a sequence number and a count (R42, R43, R44, R94). -/
def readSeqInt {w : Nat} (a b : Operand w) : Except CmdError (SeqNum × Int) :=
  if a.kind ≠ .seq then .error .typeError
  else if b.kind ≠ .int then .error .typeError
  else if isNormalized a.val = false then .error .notNormalized
  else .ok (seqOf a.val, intOf b.val)

/-- The operand of `NORM`: an integer (R42, R43). -/
def readInt {w : Nat} (a : Operand w) : Except CmdError Int :=
  if a.kind ≠ .int then .error .typeError else .ok (intOf a.val)

/-- Run a command on two sequence numbers, or raise what their check gives. -/
def withSeqSeq {w : Nat} (a b : Operand w) (s : State w) (f : SeqNum → SeqNum → State w) : State w :=
  match readSeqSeq a b with
  | .ok (x, y) => f x y
  | .error e => raise e s

/-- Run a command on a sequence number and a count, or raise what their check gives. -/
def withSeqInt {w : Nat} (a b : Operand w) (s : State w) (f : SeqNum → Int → State w) : State w :=
  match readSeqInt a b with
  | .ok (x, n) => f x n
  | .error e => raise e s

/-- Run a command on an integer, or raise what its check gives. -/
def withInt {w : Nat} (a : Operand w) (s : State w) (f : Int → State w) : State w :=
  match readInt a with
  | .ok n => f n
  | .error e => raise e s

/-- Run a command on the held sequence, or raise `NO_RANGE` when none is held (R80, R81). -/
def withRange {w : Nat} (s : State w) (f : State w → State w) : State w :=
  if s.srLoaded = true then f s else raise .noRange s

end Sys2Proof.Machine
end

