-- ==== Sys2Proof/Machine/Compare.lean ====
section
/-! DEFINITION. Ordering and equality: `LT`, `LE`, `GT`, `GE`, `EQ` (R67 to R71). -/

namespace Sys2Proof.Machine

/-- A predicate of two sequence numbers: `respond(BOOL, zext_W(flag), 0)` (41, the template of the family). -/
def comparison {w : Nat} (p : SeqNum → SeqNum → Bool) (a b : Operand w) (s : State w) : State w :=
  withSeqSeq a b s fun x y => respond .bool (boolBits (p x y)) false s

/-- `LT`: `d < 0` (R67). -/
def execLt {w : Nat} (a b : Operand w) (s : State w) : Host.Outcome (State w) Fault Refusal :=
  .next (comparison seqLt a b s)

/-- `LE`: `d <= 0` (R68). -/
def execLe {w : Nat} (a b : Operand w) (s : State w) : Host.Outcome (State w) Fault Refusal :=
  .next (comparison seqLe a b s)

/-- `GT`: `d > 0` (R69). -/
def execGt {w : Nat} (a b : Operand w) (s : State w) : Host.Outcome (State w) Fault Refusal :=
  .next (comparison seqGt a b s)

/-- `GE`: `d >= 0` (R70). -/
def execGe {w : Nat} (a b : Operand w) (s : State w) : Host.Outcome (State w) Fault Refusal :=
  .next (comparison seqGe a b s)

/-- `EQ`: `a == b` (R71). -/
def execEq {w : Nat} (a b : Operand w) (s : State w) : Host.Outcome (State w) Fault Refusal :=
  .next (comparison seqEq a b s)

end Sys2Proof.Machine
end

