-- ==== Sys2Proof/Machine/Construct.lean ====
section
/-! DEFINITION. Construction, distance and stepping: `NORM`, `DIST`, `ADD`, `SUBN` (R54 to R57). -/

namespace Sys2Proof.Machine

/-- `NORM`: `respond(SEQ, zext_W(n mod 256), 0)`; B is ignored (R54). -/
def execNorm {w : Nat} (a _b : Operand w) (s : State w) : Host.Outcome (State w) Fault Refusal :=
  .next (withInt a s fun n => respond .seq (seqBits (modSeq n)) false s)

/-- `DIST`: `respond(INT, sext_W(signed8(a) − signed8(b)), 0)` (R55). -/
def execDist {w : Nat} (a b : Operand w) (s : State w) : Host.Outcome (State w) Fault Refusal :=
  .next (withSeqSeq a b s fun x y => respond .int (distBits (distance x y)) false s)

/-- `ADD`: `respond(SEQ, zext_W((a + n) mod 256), 0)` (R56). -/
def execAdd {w : Nat} (a b : Operand w) (s : State w) : Host.Outcome (State w) Fault Refusal :=
  .next (withSeqInt a b s fun x n => respond .seq (seqBits (stepForward x n)) false s)

/-- `SUBN`: `respond(SEQ, zext_W((a − n) mod 256), 0)` (R57). -/
def execSubn {w : Nat} (a b : Operand w) (s : State w) : Host.Outcome (State w) Fault Refusal :=
  .next (withSeqInt a b s fun x n => respond .seq (seqBits (stepBackward x n)) false s)

end Sys2Proof.Machine
end

