-- ==== Sys2Proof/Machine/Srange.lean ====
section
/-! DEFINITION. The srange enumerator: `SRSTART`, `SRNEXT`, `SRRESTART` (R79 to R81). -/

namespace Sys2Proof.Machine

/-- `SRSTART`: hold `srange(start, end)`, positioned at its first element, and `respond(NONE, 0, 0)` (R79). -/
def execSrstart {w : Nat} (a b : Operand w) (s : State w) : Host.Outcome (State w) Fault Refusal :=
  .next (withSeqSeq a b s fun x y => respond .none 0 false (loadRange x y s))

/-- `SRNEXT`: the next element of the held sequence, or done; both operands are ignored (R80). -/
def execSrnext {w : Nat} (_a _b : Operand w) (s : State w) : Host.Outcome (State w) Fault Refusal :=
  .next (withRange s takeElement)

/-- `SRRESTART`: back to the first element, `respond(NONE, 0, 0)`; both operands are ignored (R81). -/
def execSrrestart {w : Nat} (_a _b : Operand w) (s : State w) : Host.Outcome (State w) Fault Refusal :=
  .next (withRange s fun t => respond .none 0 false (setCur t.srStart t))

end Sys2Proof.Machine
end

