-- ==== Sys2Proof/Machine/Dispatch.lean ====
section
/-! DEFINITION. One arm per command: the table of R41. -/

namespace Sys2Proof.Machine

def exec (i : Instr) (s : State) : Host.Outcome State Fault Refusal :=
  match i with
  | .norm a b => Sys2Proof.Machine.execNorm a b s
  | .dist a b => Sys2Proof.Machine.execDist a b s
  | .add a b => Sys2Proof.Machine.execAdd a b s
  | .subn a b => Sys2Proof.Machine.execSubn a b s
  | .lt a b => Sys2Proof.Machine.execLt a b s
  | .le a b => Sys2Proof.Machine.execLe a b s
  | .gt a b => Sys2Proof.Machine.execGt a b s
  | .ge a b => Sys2Proof.Machine.execGe a b s
  | .eq a b => Sys2Proof.Machine.execEq a b s
  | .srstart a b => Sys2Proof.Machine.execSrstart a b s
  | .srnext a b => Sys2Proof.Machine.execSrnext a b s
  | .srrestart a b => Sys2Proof.Machine.execSrrestart a b s

end Sys2Proof.Machine
end

