-- ==== Sys2Proof/Machine/Port.lean ====
section
/-! DEFINITION. The request port: what one rising edge of `clk` does with what the client drives (R39, R94, R105, R106). The
operations take the command dispatcher as their argument `run`, so that the port is written once for every port width. -/

namespace Sys2Proof.Machine

/-- The step of one accepted command (R94): the decoder's errors first, then the operation with its own checks. -/
def acceptWith {w : Nat} (run : Instr w → State w → Host.Outcome (State w) Fault Refusal) (c : Command w) (s : State w) :
    Host.Outcome (State w) Fault Refusal :=
  match decode c with
  | .ok i => run i s
  | .error e => .next (raise e s)

/-- What an edge does: reset wins over a command (R106); else a valid request is accepted (R39); else nothing is. -/
def edgeWith {w : Nat} (run : Instr w → State w → Host.Outcome (State w) Fault Refusal) (e : Edge w) (s : State w) :
    Host.Outcome (State w) Fault Refusal :=
  if e.rst = true then .next (resetEdge s)
  else if e.reqValid = true then acceptWith run e.command s
  else .next (idleEdge s)

/-- One rising edge of `clk`: take what the client drives and do what the edge does. -/
def clockEdgeWith {w : Nat} (run : Instr w → State w → Host.Outcome (State w) Fault Refusal) (s : State w) :
    Host.Outcome (State w) Fault Refusal :=
  edgeWith run (currentEdge s) (dropInput s)

/-- An accepted command at the default port width. -/
def acceptCommand (c : Command) (s : State) : Host.Outcome State Fault Refusal := acceptWith exec c s

/-- One rising edge of `clk` at the default port width. -/
def clockEdge (s : State) : Host.Outcome State Fault Refusal := clockEdgeWith exec s

/-- The edge at which the client presents the command whose bits are `w` (`rst = 0`, `req_valid = 1`). -/
def requestEdge (nbits w : Nat) : Edge :=
  { rst := false, reqValid := true, command := commandOfNumber nbits w }

end Sys2Proof.Machine
end

