-- ==== Sys2Proof/Machine/Step.lean ====
section
/-! DEFINITION. One step of the machine is one rising edge of `clk`, and the client's placing of a command at the next one. -/

namespace Sys2Proof.Machine

/-- One step: one rising edge of `clk` (R39, R105). -/
def step (s : State) : Host.Outcome State Fault Refusal := clockEdge s

/-- The state with a command presented at the next edge: the block fetches nothing (R14), so a command runs by being driven
on the port (log entry 4). -/
def State.withFetchWord (s : State) (nbits w : Nat) : State := pushInput (requestEdge nbits w) s

end Sys2Proof.Machine
end

