-- ==== Sys2Proof/Machine/Width.lean ====
section
/-! DEFINITION. The block at every port width: `INT_W` is a parameter of the model (R4, 93 I8), here the argument `w`. The
commands are the same meanings that `exec` calls, and the port is the same port; `exec` and `step` are these at the default
width. -/

namespace Sys2Proof.Machine

/-- The dispatcher of the block whose ports are `w` bits wide: the table of R41. -/
def execAt {w : Nat} (i : Instr w) (s : State w) : Host.Outcome (State w) Fault Refusal :=
  match i with
  | .norm a b => execNorm a b s
  | .dist a b => execDist a b s
  | .add a b => execAdd a b s
  | .subn a b => execSubn a b s
  | .lt a b => execLt a b s
  | .le a b => execLe a b s
  | .gt a b => execGt a b s
  | .ge a b => execGe a b s
  | .eq a b => execEq a b s
  | .srstart a b => execSrstart a b s
  | .srnext a b => execSrnext a b s
  | .srrestart a b => execSrrestart a b s

/-- An accepted command of the block whose ports are `w` bits wide (R94). -/
def acceptAt {w : Nat} (c : Command w) (s : State w) : Host.Outcome (State w) Fault Refusal := acceptWith execAt c s

/-- One rising edge of `clk` of the block whose ports are `w` bits wide (R39, R105). -/
def stepAt {w : Nat} (s : State w) : Host.Outcome (State w) Fault Refusal := clockEdgeWith execAt s

end Sys2Proof.Machine
end

