-- ==== Sys2Proof/Machine/Assembler.lean ====
section
/-! DEFINITION. The assembler of R51 to R53: operand forms, pseudo-instructions, the command triple of a line, and the reading
of a line's text. It is notation for command triples (92 D26); the machine never calls it. -/

namespace Sys2Proof.Machine

/-- An operand as it is written: `s<number>` or `#<number>` (R51). -/
inductive AsmOperand where
  | seq (n : Nat)
  | int (n : Int)
  deriving DecidableEq, Repr

/-- The mnemonics of R41 and the pseudo-instructions of R52. -/
inductive Mnemonic where
  | norm | dist | add | subn | lt | le | gt | ge | eq | srstart | srnext | srrestart
  | inc | dec | sub | srange
  deriving DecidableEq, Repr

/-- A line `MNEMONIC [opA [, opB]]` (R51). -/
structure AsmLine where
  mnemonic : Mnemonic
  opA : Option AsmOperand
  opB : Option AsmOperand
  deriving DecidableEq, Repr

/-- The expansion of a pseudo-instruction (R52); a core mnemonic stands for itself. A pseudo-instruction written with operands
R52 does not list has no expansion (DESIGN CHOICE, safe, log entry 9). -/
def expandLine (l : AsmLine) : Option AsmLine :=
  match l.mnemonic, l.opA, l.opB with
  | .inc, some (.seq x), none => some ⟨.add, some (.seq x), some (.int 1)⟩
  | .dec, some (.seq x), none => some ⟨.subn, some (.seq x), some (.int 1)⟩
  | .sub, some a, some (.seq y) => some ⟨.dist, some a, some (.seq y)⟩
  | .sub, some a, some (.int n) => some ⟨.subn, some a, some (.int n)⟩
  | .srange, some (.seq x), some (.seq y) => some ⟨.srstart, some (.seq x), some (.seq y)⟩
  | .inc, _, _ => none
  | .dec, _, _ => none
  | .sub, _, _ => none
  | .srange, _, _ => none
  | _, _, _ => some l

/-- The kind tag and port value of a written operand; none for a number the port cannot carry (R51, I16). -/
def portOperand (w : Nat) : AsmOperand → Option (Operand w)
  | .seq n => if n < 2 ^ w then some ⟨.seq, BitVec.ofNat w n⟩ else none
  | .int n => if -(2 ^ (w - 1)) ≤ n ∧ n < 2 ^ w then some ⟨.int, BitVec.ofInt w n⟩ else none

/-- An omitted operand: kind bit 0 and port value 0 (R51). -/
def omittedOperand {w : Nat} : Operand w := ⟨.seq, 0⟩

/-- The port operand of an optional written operand. -/
def optionalOperand (w : Nat) : Option AsmOperand → Option (Operand w)
  | none => some omittedOperand
  | some o => portOperand w o

/-- The command of a core mnemonic; none for a pseudo-instruction. -/
def instrOfMnemonic {w : Nat} (m : Mnemonic) (a b : Operand w) : Option (Instr w) :=
  match m with
  | .norm => some (.norm a b)
  | .dist => some (.dist a b)
  | .add => some (.add a b)
  | .subn => some (.subn a b)
  | .lt => some (.lt a b)
  | .le => some (.le a b)
  | .gt => some (.gt a b)
  | .ge => some (.ge a b)
  | .eq => some (.eq a b)
  | .srstart => some (.srstart a b)
  | .srnext => some (.srnext a b)
  | .srrestart => some (.srrestart a b)
  | .inc => none
  | .dec => none
  | .sub => none
  | .srange => none

/-- The command with every ignored operand bit at 0, the canonical form (R53). -/
def canonical {w : Nat} : Instr w → Instr w
  | .norm a _ => .norm a omittedOperand
  | .srnext _ _ => .srnext omittedOperand omittedOperand
  | .srrestart _ _ => .srrestart omittedOperand omittedOperand
  | .dist a b => .dist a b
  | .add a b => .add a b
  | .subn a b => .subn a b
  | .lt a b => .lt a b
  | .le a b => .le a b
  | .gt a b => .gt a b
  | .ge a b => .ge a b
  | .eq a b => .eq a b
  | .srstart a b => .srstart a b

/-- The command triple a line assembles to, kind mismatches included, for ports of `w` bits (R51). -/
def assembleLine (l : AsmLine) (w : Nat := Config.intW) : Option (Command w) :=
  match expandLine l with
  | none => none
  | some k =>
    match optionalOperand w k.opA, optionalOperand w k.opB with
    | some a, some b => (instrOfMnemonic k.mnemonic a b).map fun i => encode (canonical i)
    | _, _ => none

/-- The place of a character in a row of digits, which is its value. -/
def digitAmong (row : String) (c : Char) : Option Nat := row.toList.findIdx? fun d => d == c

/-- The value of a decimal digit. -/
def decDigit : Char → Option Nat := digitAmong "0123456789"

/-- The value of a hexadecimal digit with a capital or a small letter (log entry 9). -/
def hexDigit (c : Char) : Option Nat := (digitAmong "0123456789ABCDEF" c).or (digitAmong "0123456789abcdef" c)

/-- The value of a run of digits in a base, continuing from `acc`. -/
def readDigits (base : Nat) (digit : Char → Option Nat) : List Char → Nat → Option Nat
  | [], acc => some acc
  | c :: cs, acc =>
    match digit c with
    | some d => readDigits base digit cs (acc * base + d)
    | none => none

/-- A number, decimal or `0x` hexadecimal, with at least one digit (R51). -/
def readNumber : List Char → Option Nat
  | [] => none
  | '0' :: 'x' :: c :: cs => readDigits 16 hexDigit (c :: cs) 0
  | c :: cs => readDigits 10 decDigit (c :: cs) 0

/-- An operand: `s<number>`, `#<number>` or `#-<number>` (R51). -/
def readOperand : List Char → Option AsmOperand
  | 's' :: cs => (readNumber cs).map fun n => .seq n
  | '#' :: '-' :: cs => (readNumber cs).map fun n => .int (-(n : Int))
  | '#' :: cs => (readNumber cs).map fun n => .int (n : Int)
  | _ => none

/-- Whether a character is a blank (DESIGN CHOICE, safe, log entry 9: blanks separate and are otherwise skipped). -/
def isBlank (c : Char) : Bool := decide (c = ' ' ∨ c = '\t' ∨ c = '\r' ∨ c = '\n')

/-- The text with the blanks at both ends taken off. -/
def trimBlanks (cs : List Char) : List Char :=
  (((cs.dropWhile isBlank).reverse).dropWhile isBlank).reverse

/-- The text up to a comment, which starts with `;` (R51). -/
def dropComment (cs : List Char) : List Char := cs.takeWhile fun c => decide (c ≠ ';')

/-- A text cut at its commas. -/
def splitCommas : List Char → List (List Char)
  | [] => [[]]
  | c :: cs =>
    match splitCommas cs with
    | [] => [[c]]
    | p :: ps => if c = ',' then [] :: p :: ps else (c :: p) :: ps

/-- The mnemonic a word spells (R41, R52). -/
def readMnemonic (cs : List Char) : Option Mnemonic :=
  if cs = "NORM".toList then some .norm
  else if cs = "DIST".toList then some .dist
  else if cs = "ADD".toList then some .add
  else if cs = "SUBN".toList then some .subn
  else if cs = "LT".toList then some .lt
  else if cs = "LE".toList then some .le
  else if cs = "GT".toList then some .gt
  else if cs = "GE".toList then some .ge
  else if cs = "EQ".toList then some .eq
  else if cs = "SRSTART".toList then some .srstart
  else if cs = "SRNEXT".toList then some .srnext
  else if cs = "SRRESTART".toList then some .srrestart
  else if cs = "INC".toList then some .inc
  else if cs = "DEC".toList then some .dec
  else if cs = "SUB".toList then some .sub
  else if cs = "SRANGE".toList then some .srange
  else none

/-- The operands of a line: none, one, or two with a comma between them (R51). -/
def readOperands (cs : List Char) : Option (Option AsmOperand × Option AsmOperand) :=
  match trimBlanks cs with
  | [] => some (none, none)
  | d :: ds =>
    match splitCommas (d :: ds) with
    | [x] => (readOperand (trimBlanks x)).map fun a => (some a, none)
    | [x, y] =>
      match readOperand (trimBlanks x), readOperand (trimBlanks y) with
      | some a, some b => some (some a, some b)
      | _, _ => none
    | _ => none

/-- The line a text spells (R51). -/
def readLine (text : List Char) : Option AsmLine :=
  let body := trimBlanks (dropComment text)
  match readMnemonic (body.takeWhile fun c => !isBlank c), readOperands (body.dropWhile fun c => !isBlank c) with
  | some m, some (a, b) => some ⟨m, a, b⟩
  | _, _ => none

/-- The command triple the text of a line assembles to, for ports of `w` bits. -/
def assembleText (text : String) (w : Nat := Config.intW) : Option (Command w) :=
  match readLine text.toList with
  | some l => assembleLine l w
  | none => none

end Sys2Proof.Machine
end

