-- ==== Sys2Proof/Safety.lean ====
section
/-! DEFINITION. The terms claims are stated in, written from the spec's tables and formulas apart from the model's own
operations: responses by their numbered codes (R90, R92), operands by their integers (R12), what counts as a safe state and a
safe run, the opcode table's match and mask, and the priority order of R94. -/

namespace Sys2Proof.Safety

open Sys2Proof.Machine

/-- The state after a command that succeeds with a result: only the response register differs (R89, kind codes of R90). -/
def answered {w : Nat} (s : State w) (kind : BitVec 2) (val : Word w) (done : Bool) : State w :=
  { s with rsp := ⟨true, 0, kind, val, done⟩ }

/-- The state after a command that ends in error: the error response and the sticky bit, nothing else (R93, codes of R92). -/
def failed {w : Nat} (s : State w) (code : BitVec 3) : State w :=
  { s with stickyErr := true, rsp := ⟨true, code, 0, 0, false⟩ }

/-- A normalised sequence operand: kind `SEQ` and `uint(v) ∈ [0, 256)` (R12). -/
abbrev SeqOperand {w : Nat} (a : Operand w) : Prop := a.kind = .seq ∧ a.val.toNat < 256

/-- The operand a client writes for a sequence number (kind `SEQ`, zero upper bits). -/
def seqOperand {w : Nat} (x : SeqNum) : Operand w := ⟨.seq, BitVec.ofNat w x.toNat⟩

/-- The operand a client writes for an integer (kind `INT`, `INT_W`-bit two's complement). -/
def intOperand {w : Nat} (n : Int) : Operand w := ⟨.int, BitVec.ofInt w n⟩

/-- `signed8` of a number in [0, 256), read as `int_8` of its 8 bits (R8). -/
def signedRep (n : Nat) : Int := (BitVec.ofNat 8 n).toInt

/-- The circular distance `c(a, b) = int_8((a − b) mod 256)` (R63). -/
def circular (a b : SeqNum) : Int := (a - b).toInt

/-- The response of a command, as the client reads it in the cycle after the edge (R91); the old response if it stops. -/
def responseOf (i : Instr) (s : State) : Response :=
  match exec i s with
  | .next t => t.rsp
  | .fault _ => s.rsp
  | .refused _ => s.rsp

/-- `rsp_val` of a command's response. -/
def valueOf (i : Instr) (s : State) : Word := (responseOf i s).val

/-- An operand that feeds a response's value back with kind bit 0 (R90). -/
def feedBack {w : Nat} (v : Word w) : Operand w := ⟨.seq, v⟩

/-- The kind column of R90: the result kind of a command that succeeds; `SRNEXT` answers `NONE` when done and `SEQ` otherwise. -/
def kindColumn {w : Nat} (i : Instr w) (done : Bool) : BitVec 2 :=
  match i with
  | .norm _ _ => 1
  | .dist _ _ => 2
  | .add _ _ => 1
  | .subn _ _ => 1
  | .lt _ _ => 3
  | .le _ _ => 3
  | .gt _ _ => 3
  | .ge _ _ => 3
  | .eq _ _ => 3
  | .srstart _ _ => 0
  | .srnext _ _ => if done then 0 else 1
  | .srrestart _ _ => 0

/-- What R25, R90 and R92 promise of a response while `rsp_valid = 1`: a code of the table, the value its kind allows, nothing
but `NONE` and 0 on an error, and done only with `OK` and `NONE`. -/
abbrev ResponseWf {w : Nat} (r : Response w) : Prop :=
  r.valid = true →
    r.err.toNat ≤ 4 ∧
    (r.kind = 0 → r.val = 0) ∧
    (r.kind = 1 → r.val.toNat < 256) ∧
    (r.kind = 2 → -255 ≤ r.val.toInt ∧ r.val.toInt ≤ 255) ∧
    (r.kind = 3 → r.val.toNat ≤ 1) ∧
    (r.err ≠ 0 → r.kind = 0 ∧ r.done = false) ∧
    (r.done = true → r.kind = 0)

/-- R26: while a sequence is held, `SR_CUR` lies on the forward path from `SR_START` to `SR_END`. -/
abbrev OnForwardPath {w : Nat} (s : State w) : Prop :=
  s.srLoaded = true →
    (((s.srCur.toNat : Int) - s.srStart.toNat) % 256) ≤ (((s.srEnd.toNat : Int) - s.srStart.toNat) % 256)

/-- An error response on the port is remembered by the sticky bit (R93, R96). -/
abbrev ErrorIsSticky {w : Nat} (s : State w) : Prop :=
  s.rsp.valid = true → s.rsp.err ≠ 0 → s.stickyErr = true

/-- What is safe in a state: the invariants the spec names, together. -/
abbrev Inv {w : Nat} (s : State w) : Prop := OnForwardPath s ∧ ResponseWf s.rsp ∧ ErrorIsSticky s

/-- "No error since reset", the premise the sticky bit gives a claim (92 D16). -/
abbrev NoErrorSinceReset {w : Nat} (s : State w) : Prop := s.stickyErr = false

/-- The state after a list of accepted commands, one per edge, or the first stop. -/
def acceptAll : List Command → State → Host.Outcome State Fault Refusal
  | [], s => .next s
  | c :: cs, s =>
    match acceptCommand c s with
    | .next t => acceptAll cs t
    | .fault f => .fault f
    | .refused r => .refused r

/-- A run of `n` edges that ends in `t`: no step of it stopped. -/
def Runs (n : Nat) (s t : State) : Prop := Host.Core.run Sys2Proof.core n s = .next t

/-- A safe run: it reaches a state, and no command in it ended in error. -/
def SafeRun (n : Nat) (s t : State) : Prop := Runs n s t ∧ NoErrorSinceReset t

/-- The match column of the opcode table (R50). -/
def tableMatch {w : Nat} : Instr w → BitVec 8
  | .norm _ _ => 0x10
  | .dist _ _ => 0x01
  | .add _ _ => 0x22
  | .subn _ _ => 0x23
  | .lt _ _ => 0x04
  | .le _ _ => 0x05
  | .gt _ _ => 0x06
  | .ge _ _ => 0x07
  | .eq _ _ => 0x08
  | .srstart _ _ => 0x09
  | .srnext _ _ => 0x0A
  | .srrestart _ _ => 0x0B

/-- The mask column of the opcode table (R50). -/
def tableMask {w : Nat} : Instr w → BitVec 8
  | .norm _ _ => 0xDF
  | .dist _ _ => 0xFF
  | .add _ _ => 0xFF
  | .subn _ _ => 0xFF
  | .lt _ _ => 0xFF
  | .le _ _ => 0xFF
  | .gt _ _ => 0xFF
  | .ge _ _ => 0xFF
  | .eq _ _ => 0xFF
  | .srstart _ _ => 0xFF
  | .srnext _ _ => 0xCF
  | .srrestart _ _ => 0xCF

/-- The three commands that may write the iterator registers (R27). -/
def isSrange {w : Nat} : Instr w → Bool
  | .srstart _ _ => true
  | .srnext _ _ => true
  | .srrestart _ _ => true
  | .norm _ _ => false
  | .dist _ _ => false
  | .add _ _ => false
  | .subn _ _ => false
  | .lt _ _ => false
  | .le _ _ => false
  | .gt _ _ => false
  | .ge _ _ => false
  | .eq _ _ => false

/-- The "Raised by" column of R92 for the errors a decoded command can end in: which command can raise which code. -/
def raisesColumn {w : Nat} (i : Instr w) (code : BitVec 3) : Prop :=
  match i with
  | .norm _ _ => code = 2
  | .dist _ _ => code = 2 ∨ code = 3
  | .add _ _ => code = 2 ∨ code = 3
  | .subn _ _ => code = 2 ∨ code = 3
  | .lt _ _ => code = 2 ∨ code = 3
  | .le _ _ => code = 2 ∨ code = 3
  | .gt _ _ => code = 2 ∨ code = 3
  | .ge _ _ => code = 2 ∨ code = 3
  | .eq _ _ => code = 2 ∨ code = 3
  | .srstart _ _ => code = 2 ∨ code = 3
  | .srnext _ _ => code = 4
  | .srrestart _ _ => code = 4

/-- The code of the first error cause a command meets, in the order of R94; 0 where it meets none. It is computed from the
numbers of the command word: `op = cmd mod 16`, the kind bits `cmd / 16 mod 2` and `cmd / 32 mod 2`, `rsv = cmd / 64`. -/
def firstError {w : Nat} (s : State w) (c : Command w) : BitVec 3 :=
  let op := c.cmd.toNat % 16
  let ka := c.cmd.toNat / 16 % 2
  let kb := c.cmd.toNat / 32 % 2
  let aSeq := 1 ≤ op ∧ op ≤ 9
  let bSeq := op = 1 ∨ (4 ≤ op ∧ op ≤ 9)
  if c.cmd.toNat / 64 ≠ 0 then 1
  else if 12 ≤ op then 1
  else if (op = 0 ∧ ka ≠ 1) ∨ (aSeq ∧ ka ≠ 0) then 2
  else if ((op = 2 ∨ op = 3) ∧ kb ≠ 1) ∨ (bSeq ∧ kb ≠ 0) then 2
  else if aSeq ∧ 256 ≤ c.aVal.toNat then 3
  else if bSeq ∧ 256 ≤ c.bVal.toNat then 3
  else if (op = 10 ∨ op = 11) ∧ s.srLoaded = false then 4
  else 0

/-- The edge at which the client presents a command (`rst = 0`, `req_valid = 1`). -/
def present {w : Nat} (i : Instr w) : Edge w := { rst := false, reqValid := true, command := encode i }

/-- `SRNEXT` as the assembler writes it, every ignored bit 0 (R53). -/
def nextCommand {w : Nat} : Instr w := .srnext ⟨.seq, 0⟩ ⟨.seq, 0⟩

/-- `SRRESTART` as the assembler writes it, every ignored bit 0 (R53). -/
def restartCommand {w : Nat} : Instr w := .srrestart ⟨.seq, 0⟩ ⟨.seq, 0⟩

/-- The four orderings answer as the circular comparison does, and `EQ` answers whether the circular distance is 0 (R76). -/
def AgreesWithCircular (x y : SeqNum) (s : State) : Prop :=
  (valueOf (.lt (seqOperand x) (seqOperand y)) s = 1 ↔ circular x y < 0) ∧
  (valueOf (.le (seqOperand x) (seqOperand y)) s = 1 ↔ circular x y ≤ 0) ∧
  (valueOf (.gt (seqOperand x) (seqOperand y)) s = 1 ↔ 0 < circular x y) ∧
  (valueOf (.ge (seqOperand x) (seqOperand y)) s = 1 ↔ 0 ≤ circular x y) ∧
  (valueOf (.eq (seqOperand x) (seqOperand y)) s = 1 ↔ circular x y = 0)

/-- Each of the four orderings answers the opposite of the circular comparison (R75, R76). -/
def DisagreesWithCircular (x y : SeqNum) (s : State) : Prop :=
  (valueOf (.lt (seqOperand x) (seqOperand y)) s = 1 ↔ ¬circular x y < 0) ∧
  (valueOf (.le (seqOperand x) (seqOperand y)) s = 1 ↔ ¬circular x y ≤ 0) ∧
  (valueOf (.gt (seqOperand x) (seqOperand y)) s = 1 ↔ ¬0 < circular x y) ∧
  (valueOf (.ge (seqOperand x) (seqOperand y)) s = 1 ↔ ¬0 ≤ circular x y)

/-- The registers of two blocks, whatever their port widths, hold the same values; the response is compared by `SameAnswer`. -/
def SameRegisters {v w : Nat} (s : State v) (u : State w) : Prop :=
  s.srStart = u.srStart ∧ s.srEnd = u.srEnd ∧ s.srCur = u.srCur ∧ s.srLoaded = u.srLoaded ∧ s.stickyErr = u.stickyErr

/-- Two responses, whatever their port widths, answer the same: an `INT` value is compared in two's complement, every other
value as an unsigned number (R90). -/
def SameAnswer {v w : Nat} (r : Response v) (q : Response w) : Prop :=
  r.valid = q.valid ∧ r.err = q.err ∧ r.kind = q.kind ∧ r.done = q.done ∧
  (if r.kind = 2 then r.val.toInt = q.val.toInt else r.val.toNat = q.val.toNat)

/-- The `op` number of a core mnemonic, as the table of R41 gives it; none for a pseudo-instruction. -/
def opNumber : Mnemonic → Option Nat
  | .norm => some 0
  | .dist => some 1
  | .add => some 2
  | .subn => some 3
  | .lt => some 4
  | .le => some 5
  | .gt => some 6
  | .ge => some 7
  | .eq => some 8
  | .srstart => some 9
  | .srnext => some 10
  | .srrestart => some 11
  | .inc => none
  | .dec => none
  | .sub => none
  | .srange => none

/-- The kind bit of a written operand: 1 for `#<number>`, else 0 (R51). -/
def writtenKind : Option AsmOperand → Nat
  | some (.int _) => 1
  | some (.seq _) => 0
  | none => 0

/-- The port value of a written operand, 0 for an omitted one (R51). -/
def writtenValue {w : Nat} : Option AsmOperand → Word w
  | some (.seq n) => BitVec.ofNat w n
  | some (.int n) => BitVec.ofInt w n
  | none => 0

/-- Whether the port carries the written number: `s<number>` below 2^w, `#<number>` from -2^(w-1) up to below 2^w (I16, log
entry 9). -/
def Carried (w : Nat) : Option AsmOperand → Prop
  | some (.seq n) => n < 2 ^ w
  | some (.int n) => -(2 ^ (w - 1)) ≤ n ∧ n < 2 ^ w
  | none => True

end Sys2Proof.Safety
end

