-- ==== Sys2Proof/Certificates/Slice0/Obligations.lean ====
section
/-! DEFINITION. The statements for the provers, in the order of the spec's files. Each docstring names the rules it formalises;
the terms are Safety's, written from the spec's tables apart from the model's operations. -/

open Sys2Proof Sys2Proof.Machine Sys2Proof.Safety

/-! ## The port width and the pure rules of 00 -/

/-- R4: every port width of at least 9 bits holds every `DIST` result, and 8 bits do not. On any two such widths the block gives
the same answer to every command word on numbers that a 9-bit port carries, and `exec` and `step` are the block at the default
width. -/
def Obligations.EveryPortWidthHoldsTheSameAnswers : Prop :=
  (∀ (w : Nat) (x y : SeqNum) (s : State w), 9 ≤ w → ∃ t, execAt (.dist (seqOperand x) (seqOperand y)) s = .next t ∧
    t.rsp.valid = true ∧ t.rsp.err = 0 ∧ t.rsp.kind = 2 ∧ t.rsp.val.toInt = signedRep x.toNat - signedRep y.toNat) ∧
  (∃ x y : SeqNum, ∀ s t : State 8, execAt (.dist (seqOperand x) (seqOperand y)) s = .next t →
    t.rsp.val.toInt ≠ signedRep x.toNat - signedRep y.toNat) ∧
  (∀ (v w : Nat) (cmd : BitVec 8) (a b : Int) (s : State v) (u : State w), 9 ≤ v → 9 ≤ w →
    -256 ≤ a → a < 256 → -256 ≤ b → b < 256 → SameRegisters s u →
    ∃ t r, acceptAt ⟨cmd, BitVec.ofInt v a, BitVec.ofInt v b⟩ s = .next t ∧
      acceptAt ⟨cmd, BitVec.ofInt w a, BitVec.ofInt w b⟩ u = .next r ∧ SameRegisters t r ∧ SameAnswer t.rsp r.rsp) ∧
  (∀ (i : Instr) (s : State), exec i s = execAt i s) ∧
  (∀ s : State, step s = stepAt s)

/-- R5: the response of a command outside the `srange` family is a function of the command and its operands; an `srange`
command's response and the iterator registers it leaves depend only on the iterator registers before it. -/
def Obligations.ResponsesDependOnlyOnWhatTheCommandReads : Prop :=
  (∀ (i : Instr) (s u : State), isSrange i = false → responseOf i s = responseOf i u) ∧
  (∀ (i : Instr) (s u : State), isSrange i = true → s.srStart = u.srStart → s.srEnd = u.srEnd → s.srCur = u.srCur →
    s.srLoaded = u.srLoaded →
    ∃ t v, exec i s = .next t ∧ exec i u = .next v ∧ t.rsp = v.rsp ∧ t.srStart = v.srStart ∧ t.srEnd = v.srEnd ∧
      t.srCur = v.srCur ∧ t.srLoaded = v.srLoaded)

/-! ## State: 10 -/

/-- R24: the state after reset. -/
def Obligations.ResetLeavesEveryRegisterZero : Prop :=
  State.reset.srLoaded = false ∧ State.reset.srStart = 0 ∧ State.reset.srEnd = 0 ∧ State.reset.srCur = 0 ∧
  State.reset.stickyErr = false ∧ State.reset.rsp = ⟨false, 0, 0, 0, false⟩

/-- R17: while nothing is held the three registers are not read, and `SRNEXT` and `SRRESTART` raise `NO_RANGE`; only `SRSTART`
sets `SR_LOADED`, and only an edge with `rst = 1` clears it. -/
def Obligations.LoadedFlagGuardsTheIterator : Prop :=
  (∀ (i : Instr) (s : State) (x y z : SeqNum), s.srLoaded = false →
    responseOf i { s with srStart := x, srEnd := y, srCur := z } = responseOf i s) ∧
  (∀ (a b : Operand) (s : State), s.srLoaded = false →
    exec (.srnext a b) s = .next (failed s 4) ∧ exec (.srrestart a b) s = .next (failed s 4)) ∧
  (∀ (s t : State) (e : Edge) (es : List Edge), s.inputs = e :: es → step s = .next t → s.srLoaded = false →
    t.srLoaded = true → e.rst = false ∧ e.reqValid = true ∧ ∃ a b, decode e.command = .ok (.srstart a b)) ∧
  (∀ (s t : State) (e : Edge) (es : List Edge), s.inputs = e :: es → step s = .next t → s.srLoaded = true →
    t.srLoaded = false → e.rst = true)

/-- R18, R96: after an edge `STICKY_ERR` is 0 if the edge is a reset edge, and otherwise 1 exactly if it was 1 or the edge's
command ended in error. -/
def Obligations.StickyErrRemembersEveryError : Prop :=
  ∀ (s t : State) (e : Edge) (es : List Edge), s.inputs = e :: es → step s = .next t →
    (t.stickyErr = true ↔
      e.rst = false ∧ (s.stickyErr = true ∨ (e.reqValid = true ∧ t.rsp.valid = true ∧ t.rsp.err ≠ 0)))

/-- R96: `STICKY_ERR` stays 1 over every run of driven edges without a reset edge, so a run that ends without an error since reset
had none before. -/
def Obligations.StickyErrStaysUntilReset : Prop :=
  ∀ (n : Nat) (s t : State), n ≤ s.inputs.length → Runs n s t → (∀ e ∈ s.inputs.take n, e.rst = false) →
    (s.stickyErr = true → t.stickyErr = true) ∧ (SafeRun n s t → NoErrorSinceReset s)

/-- R25, R90, R92 (I12): after any step, while `rsp_valid = 1` the response holds a code of the table and the value its kind
allows. The restriction to `rsp_valid = 1` is I13's (log entry 11). -/
def Obligations.EveryResponseIsWellFormed : Prop :=
  ∀ (s t : State), step s = .next t → ResponseWf t.rsp

/-- R26: `SRSTART` establishes that `SR_CUR` lies on the forward path, and every command keeps it. -/
def Obligations.CursorStaysOnTheForwardPath : Prop :=
  (∀ (a b : Operand) (s t : State), exec (.srstart a b) s = .next t → t.rsp.err = 0 → OnForwardPath t) ∧
  (∀ (i : Instr) (s t : State), OnForwardPath s → exec i s = .next t → OnForwardPath t)

/-- R27: only the three `srange` commands write the iterator registers; no command clears `STICKY_ERR`, and one sets it only on
an error; a command that ends in error writes no iterator register. -/
def Obligations.IteratorIsWrittenOnlyBySrangeCommands : Prop :=
  ∀ (i : Instr) (s t : State), exec i s = .next t →
    ((isSrange i = false ∨ t.rsp.err ≠ 0) →
      t.srStart = s.srStart ∧ t.srEnd = s.srEnd ∧ t.srCur = s.srCur ∧ t.srLoaded = s.srLoaded) ∧
    (t.stickyErr = true ↔ s.stickyErr = true ∨ t.rsp.err ≠ 0) ∧
    t.inputs = s.inputs ∧ t.idleCount = s.idleCount

/-! ## Ordering: 20 -/

/-- R31: every accepted command but `SRNEXT` is idempotent, and an `SRNEXT` that returns an element is not. -/
def Obligations.CommandsButSrnextAreIdempotent : Prop :=
  (∀ (c : Command) (s t : State), c.cmd &&& 0xCF ≠ 0x0A → acceptCommand c s = .next t → acceptCommand c t = .next t) ∧
  (∀ (c : Command) (s : State), c.cmd &&& 0xCF = 0x0A → s.srLoaded = true → s.srCur ≠ s.srEnd →
    ∃ t u, acceptCommand c s = .next t ∧ acceptCommand c t = .next u ∧ u ≠ t)

/-! ## Encoding: 30 -/

/-- R39: at an edge with `rst = 0` the request on the port is accepted and executed exactly if `req_valid = 1`; otherwise nothing
changes but the response register, where `rsp_valid` becomes 0. -/
def Obligations.PortAcceptsExactlyValidRequests : Prop :=
  ∀ (s : State) (e : Edge) (es : List Edge), s.inputs = e :: es → e.rst = false →
    (e.reqValid = true → step s = acceptCommand e.command { s with inputs := es } ∧
      ∃ t, step s = .next t ∧ t.rsp.valid = true ∧ t.inputs = es) ∧
    (e.reqValid = false → ∃ r : Response, r.valid = false ∧
      step s = .next { s with rsp := r, inputs := es, idleCount := s.idleCount + 1 })

/-- A step runs the decoded command: when the command on the port decodes to a well-formed `i`, the step is `exec i` at the
state whose driven edge is consumed; nothing else is added around it. -/
def Obligations.StepRunsTheDecodedCommand : Prop :=
  ∀ (s : State) (e : Edge) (es : List Edge) (i : Instr), s.inputs = e :: es → e.rst = false → e.reqValid = true →
    decode e.command = .ok i → i.wellFormed = true → step s = exec i { s with inputs := es }

/-- R43: an `INT` operand is used only modulo 256: the two's-complement and the unsigned reading agree there, and `NORM`, `ADD`
and `SUBN` answer alike on two port values with the same low 8 bits. -/
def Obligations.IntOperandsCountOnlyModulo256 : Prop :=
  (∀ v : Word, v.toInt % 256 = (v.toNat : Int) % 256 ∧ (v.toNat : Int) % 256 = ((BitVec.ofNat 8 v.toNat).toNat : Int)) ∧
  (∀ (v v' : Word) (a b : Operand) (s : State), v.toNat % 256 = v'.toNat % 256 →
    exec (.norm ⟨.int, v⟩ b) s = exec (.norm ⟨.int, v'⟩ b) s ∧
    exec (.add a ⟨.int, v⟩) s = exec (.add a ⟨.int, v'⟩) s ∧
    exec (.subn a ⟨.int, v⟩) s = exec (.subn a ⟨.int, v'⟩) s)

/-- R45: the kind bit and value of an operand the operation does not use change nothing. -/
def Obligations.UnusedOperandsChangeNothing : Prop :=
  ∀ (c d : Command) (s : State),
    (c.cmd &&& 0xDF = 0x10 → d.cmd &&& 0xDF = 0x10 → c.aVal = d.aVal → acceptCommand c s = acceptCommand d s) ∧
    (c.cmd &&& 0xCF = 0x0A → d.cmd &&& 0xCF = 0x0A → acceptCommand c s = acceptCommand d s) ∧
    (c.cmd &&& 0xCF = 0x0B → d.cmd &&& 0xCF = 0x0B → acceptCommand c s = acceptCommand d s)

/-- R46, R47: a reserved `op`, and reserved bits, raise `ILLEGAL_CMD` whatever the other bits. -/
def Obligations.ReservedWordsAreIllegal : Prop :=
  ∀ (c : Command) (s : State), 12 ≤ c.cmd.toNat % 16 ∨ c.cmd.toNat / 64 ≠ 0 →
    decode c = .error .illegalCmd ∧ acceptCommand c s = .next (failed s 1)

/-- R50: of the 256 command words 208 are `ILLEGAL_CMD`, 29 `TYPE_ERROR` and 19 legal. -/
def Obligations.DecoderCensusOfAllWords : Prop :=
  ((List.range 256).filter fun n => decide (decode (⟨BitVec.ofNat 8 n, 0, 0⟩ : Command) = .error .illegalCmd)).length = 208 ∧
  ((List.range 256).filter fun n => decide (decode (⟨BitVec.ofNat 8 n, 0, 0⟩ : Command) = .error .typeError)).length = 29 ∧
  ((List.range 256).filter fun n => (decodeTableWord 8 n).isSome).length = 19

/-- R38, R50 and the table after it: a command word matches an operation's row under its mask exactly when the decoder reads
that operation, with operand A tagged by `cmd[4]` and B by `cmd[5]`, on ports of every width. -/
def Obligations.DecoderFollowsTheOpcodeTable : Prop :=
  ∀ (w : Nat) (c : Command w) (i : Instr w),
    decode c = .ok i ↔
      i.opA = ⟨if c.cmd.getLsbD 4 then .int else .seq, c.aVal⟩ ∧
      i.opB = ⟨if c.cmd.getLsbD 5 then .int else .seq, c.bVal⟩ ∧
      c.cmd &&& tableMask i = tableMatch i

/-- Every well-formed command is read back from its own triple, with every operand at every value, on ports of every width. -/
def Obligations.EncodedCommandsDecodeToThemselves : Prop :=
  ∀ (w : Nat) (i : Instr w), i.wellFormed = true → decode (encode i) = .ok i

/-- A triple the decoder reads is the triple of the well-formed command it reads: no bit of it is dropped, whatever the
width of the ports. -/
def Obligations.DecodedCommandsEncodeToTheirTriple : Prop :=
  ∀ (w : Nat) (c : Command w) (i : Instr w), decode c = .ok i → i.wellFormed = true ∧ encode i = c

/-- Words written out from R38 and R41 decode to the commands they stand for. -/
def Obligations.WrittenWordsDecodeAsTheSpecSays : Prop :=
  decode ⟨0x10#8, 0x12345678#32, 0#32⟩ = .ok (.norm ⟨.int, 0x12345678#32⟩ ⟨.seq, 0#32⟩) ∧
  decode ⟨0x22#8, 255#32, 1#32⟩ = .ok (.add ⟨.seq, 255#32⟩ ⟨.int, 1#32⟩) ∧
  decode ⟨0x08#8, 3#32, 2#32⟩ = .ok (.eq ⟨.seq, 3#32⟩ ⟨.seq, 2#32⟩) ∧
  decode ⟨0x09#8, 2#32, 5#32⟩ = .ok (.srstart ⟨.seq, 2#32⟩ ⟨.seq, 5#32⟩) ∧
  decode ⟨0x3A#8, 0#32, 7#32⟩ = .ok (.srnext ⟨.int, 0#32⟩ ⟨.int, 7#32⟩) ∧
  decode ⟨0x28#8, 5#32, 5#32⟩ = .error .typeError ∧
  decode ⟨0x4C#8, 0#32, 0#32⟩ = .error .illegalCmd

/-- R51, R53: every core line whose numbers the port carries assembles to the word of its `op` and its written kinds with its
written values, kind mismatches included and what the operation ignores at 0; and two of the spec's own lines are read as text. -/
def Obligations.AssemblerEncodesWhatIsWritten : Prop :=
  (∀ (w : Nat) (m : Mnemonic) (op : Nat) (a b : Option AsmOperand), opNumber m = some op → Carried w a → Carried w b →
    assembleLine ⟨m, a, b⟩ w =
      some
        { cmd :=
            BitVec.ofNat 8
              (op + (if op ≤ 9 then 16 * writtenKind a else 0) + (if 1 ≤ op ∧ op ≤ 9 then 32 * writtenKind b else 0))
          aVal := if op ≤ 9 then writtenValue a else 0
          bVal := if 1 ≤ op ∧ op ≤ 9 then writtenValue b else 0 }) ∧
  assembleText "EQ s5, #5" = some ⟨0x28#8, 5#32, 5#32⟩ ∧
  assembleText "NORM #-1" = some ⟨0x10#8, 0xFFFFFFFF#32, 0#32⟩

/-- R52: the pseudo-instructions stand for their expansions. -/
def Obligations.PseudoInstructionsExpand : Prop :=
  ∀ (x y : Nat) (n : Int) (a : AsmOperand),
    expandLine ⟨.inc, some (.seq x), none⟩ = some ⟨.add, some (.seq x), some (.int 1)⟩ ∧
    expandLine ⟨.dec, some (.seq x), none⟩ = some ⟨.subn, some (.seq x), some (.int 1)⟩ ∧
    expandLine ⟨.sub, some a, some (.seq y)⟩ = some ⟨.dist, some a, some (.seq y)⟩ ∧
    expandLine ⟨.sub, some a, some (.int n)⟩ = some ⟨.subn, some a, some (.int n)⟩ ∧
    expandLine ⟨.srange, some (.seq x), some (.seq y)⟩ = some ⟨.srstart, some (.seq x), some (.seq y)⟩

/-- R53: the assembler writes only words of operations, with every ignored bit 0; the ignored port values are 0 too (I14). -/
def Obligations.AssemblerClearsIgnoredBits : Prop :=
  ∀ (w : Nat) (l : AsmLine) (c : Command w), assembleLine l w = some c →
    c.cmd.toNat / 64 = 0 ∧ c.cmd.toNat % 16 < 12 ∧
    (c.cmd.toNat % 16 = 0 → c.cmd.toNat / 32 = 0 ∧ c.bVal = 0) ∧
    (10 ≤ c.cmd.toNat % 16 → c.cmd.toNat / 16 = 0 ∧ c.aVal = 0 ∧ c.bVal = 0)

/-! ## Construction, distance and stepping: 40 -/

/-- R54: `NORM`. -/
def Obligations.NormAnswersTheRemainder : Prop :=
  (∀ (a b : Operand) (s : State), a.kind = .int →
    exec (.norm a b) s = .next (answered s 1 (BitVec.ofInt Config.intW (a.val.toInt % 256)) false)) ∧
  (∀ (a b : Operand) (s : State), a.kind = .seq → exec (.norm a b) s = .next (failed s 2)) ∧
  (∀ c : Command, (∃ a b, decode c = .ok (.norm a b)) ↔ c.cmd &&& 0xDF = 0x10)

/-- R55: `DIST`, and the range of its result. -/
def Obligations.DistAnswersTheSignedDifference : Prop :=
  (∀ (a b : Operand) (s : State), SeqOperand a → SeqOperand b →
    exec (.dist a b) s =
      .next (answered s 2 (BitVec.ofInt Config.intW (signedRep a.val.toNat - signedRep b.val.toNat)) false)) ∧
  (∀ (a b : Operand) (s : State), a.kind = .int ∨ b.kind = .int → exec (.dist a b) s = .next (failed s 2)) ∧
  (∀ (a b : Operand) (s : State), a.kind = .seq → b.kind = .seq → 256 ≤ a.val.toNat ∨ 256 ≤ b.val.toNat →
    exec (.dist a b) s = .next (failed s 3)) ∧
  (∀ c : Command, (∃ a b, decode c = .ok (.dist a b)) ↔ c.cmd = 0x01) ∧
  (∀ d : Int, (-255 ≤ d ∧ d ≤ 255) ↔
    ∃ (x y : SeqNum), ∀ s : State, (valueOf (.dist (seqOperand x) (seqOperand y)) s).toInt = d)

/-- R56: `ADD`. -/
def Obligations.AddStepsForward : Prop :=
  (∀ (a b : Operand) (s : State), SeqOperand a → b.kind = .int →
    exec (.add a b) s =
      .next (answered s 1 (BitVec.ofInt Config.intW (((a.val.toNat : Int) + b.val.toInt) % 256)) false)) ∧
  (∀ (a b : Operand) (s : State), a.kind = .int ∨ b.kind = .seq → exec (.add a b) s = .next (failed s 2)) ∧
  (∀ (a b : Operand) (s : State), a.kind = .seq → b.kind = .int → 256 ≤ a.val.toNat →
    exec (.add a b) s = .next (failed s 3)) ∧
  (∀ c : Command, (∃ a b, decode c = .ok (.add a b)) ↔ c.cmd = 0x22)

/-- R57: `SUBN`; the value is also the one the distance gives: `signed8(a) − signed8(n mod 256)`, normalised. -/
def Obligations.SubnStepsBackward : Prop :=
  (∀ (a b : Operand) (s : State), SeqOperand a → b.kind = .int →
    exec (.subn a b) s =
      .next (answered s 1 (BitVec.ofInt Config.intW (((a.val.toNat : Int) - b.val.toInt) % 256)) false)) ∧
  (∀ (a b : Operand) (s : State), a.kind = .int ∨ b.kind = .seq → exec (.subn a b) s = .next (failed s 2)) ∧
  (∀ (a b : Operand) (s : State), a.kind = .seq → b.kind = .int → 256 ≤ a.val.toNat →
    exec (.subn a b) s = .next (failed s 3)) ∧
  (∀ c : Command, (∃ a b, decode c = .ok (.subn a b)) ↔ c.cmd = 0x23) ∧
  (∀ (x : SeqNum) (n : Int) (s : State),
    ((valueOf (.subn (seqOperand x) (intOperand n)) s).toNat : Int) =
      (signedRep x.toNat - signedRep (n % 256).toNat) % 256)

/-- R58: forward and backward steps are inverse, the first response fed back as the second command's operand. -/
def Obligations.StepsForwardAndBackCancel : Prop :=
  ∀ (x : SeqNum) (v : Word) (s u : State),
    valueOf (.subn (feedBack (valueOf (.add (seqOperand x) ⟨.int, v⟩) s)) ⟨.int, v⟩) u = (seqOperand x).val ∧
    valueOf (.add (feedBack (valueOf (.subn (seqOperand x) ⟨.int, v⟩) s)) ⟨.int, v⟩) u = (seqOperand x).val

/-- R59: steps compose and are periodic, and a step backward is a step forward by the negated count. -/
def Obligations.StepsComposeAndArePeriodic : Prop :=
  ∀ (x : SeqNum) (m n k : Int) (s u : State),
    valueOf (.add (feedBack (valueOf (.add (seqOperand x) (intOperand m)) s)) (intOperand n)) u =
      valueOf (.add (seqOperand x) (intOperand (m + n))) u ∧
    valueOf (.add (seqOperand x) (intOperand (n + 256 * k))) s = valueOf (.add (seqOperand x) (intOperand n)) u ∧
    valueOf (.subn (seqOperand x) (intOperand n)) s = valueOf (.add (seqOperand x) (intOperand (-n))) u

/-- R60: `NORM` keeps a sequence number, is a step from 0, and is periodic. -/
def Obligations.NormIsAStepFromZero : Prop :=
  ∀ (x : SeqNum) (n k : Int) (b : Operand) (s u : State),
    valueOf (.norm (intOperand (x.toNat : Int)) b) s = (seqOperand x).val ∧
    valueOf (.norm (intOperand n) b) s = valueOf (.add (seqOperand 0) (intOperand n)) u ∧
    valueOf (.norm (intOperand (n + 256 * k)) b) s = valueOf (.norm (intOperand n) b) u

/-- R61: the distance is congruent to the modular difference, so `NORM` of it is `SUBN`. -/
def Obligations.DistanceIsCongruentToTheDifference : Prop :=
  ∀ (x y : SeqNum) (b : Operand) (s u : State),
    (valueOf (.dist (seqOperand x) (seqOperand y)) s).toInt % 256 = ((x.toNat : Int) - y.toNat) % 256 ∧
    valueOf (.norm ⟨.int, valueOf (.dist (seqOperand x) (seqOperand y)) s⟩ b) u =
      valueOf (.subn (seqOperand x) (intOperand (y.toNat : Int))) u

/-- R62: the distance is antisymmetric and separates values. -/
def Obligations.DistanceIsAntisymmetricAndSeparates : Prop :=
  ∀ (x y : SeqNum) (s u : State),
    (valueOf (.dist (seqOperand x) (seqOperand y)) s).toInt = -(valueOf (.dist (seqOperand y) (seqOperand x)) u).toInt ∧
    (valueOf (.dist (seqOperand x) (seqOperand x)) s).toInt = 0 ∧
    ((valueOf (.dist (seqOperand x) (seqOperand y)) s).toInt = 0 ↔ x = y)

/-- R63: how the distance relates to the circular distance, and on how many pairs the two differ: `DIST` answers the difference
whose values are counted. -/
def Obligations.DistanceAgainstCircularDistance : Prop :=
  (∀ (x y : SeqNum) (s : State),
    let d := (valueOf (.dist (seqOperand x) (seqOperand y)) s).toInt
    d = signedRep x.toNat - signedRep y.toNat ∧
    (-128 ≤ circular x y ∧ circular x y < 128 ∧ (circular x y - ((x.toNat : Int) - y.toNat)) % 256 = 0) ∧
    (-128 ≤ d ∧ d ≤ 127 → d = circular x y) ∧
    (128 ≤ d → d = circular x y + 256) ∧
    (d ≤ -129 → d = circular x y - 256) ∧
    (d ≠ circular x y → (x.toNat ≤ 127 ∧ 128 ≤ y.toNat) ∨ (128 ≤ x.toNat ∧ y.toNat ≤ 127))) ∧
  ((List.range 256).map fun a =>
    ((List.range 256).filter fun b => decide (128 ≤ signedRep a - signedRep b)).length).sum = 8256 ∧
  ((List.range 256).map fun a =>
    ((List.range 256).filter fun b => decide (signedRep a - signedRep b ≤ -129)).length).sum = 8128

/-- R64: the distance after a forward step of `k`. -/
def Obligations.DistanceAfterAForwardStep : Prop :=
  ∀ (x : SeqNum) (k : Nat) (s u : State), k ≤ 255 →
    (valueOf (.dist (feedBack (valueOf (.add (seqOperand x) (intOperand (k : Int))) s)) (seqOperand x)) u).toInt =
      if signedRep x.toNat + k ≤ 127 then (k : Int) else (k : Int) - 256

/-! ## Ordering and equality: 41 -/

/-- R67: `LT`. -/
def Obligations.LtAnswersBehind : Prop :=
  (∀ (a b : Operand) (s : State), SeqOperand a → SeqOperand b →
    exec (.lt a b) s = .next (answered s 3 (if signedRep a.val.toNat - signedRep b.val.toNat < 0 then 1 else 0) false)) ∧
  (∀ (a b : Operand) (s : State), a.kind = .int ∨ b.kind = .int → exec (.lt a b) s = .next (failed s 2)) ∧
  (∀ (a b : Operand) (s : State), a.kind = .seq → b.kind = .seq → 256 ≤ a.val.toNat ∨ 256 ≤ b.val.toNat →
    exec (.lt a b) s = .next (failed s 3)) ∧
  (∀ c : Command, (∃ a b, decode c = .ok (.lt a b)) ↔ c.cmd = 0x04)

/-- R68: `LE`. -/
def Obligations.LeAnswersBehindOrEqual : Prop :=
  (∀ (a b : Operand) (s : State), SeqOperand a → SeqOperand b →
    exec (.le a b) s = .next (answered s 3 (if signedRep a.val.toNat - signedRep b.val.toNat ≤ 0 then 1 else 0) false)) ∧
  (∀ (a b : Operand) (s : State), a.kind = .int ∨ b.kind = .int → exec (.le a b) s = .next (failed s 2)) ∧
  (∀ (a b : Operand) (s : State), a.kind = .seq → b.kind = .seq → 256 ≤ a.val.toNat ∨ 256 ≤ b.val.toNat →
    exec (.le a b) s = .next (failed s 3)) ∧
  (∀ c : Command, (∃ a b, decode c = .ok (.le a b)) ↔ c.cmd = 0x05)

/-- R69: `GT`. -/
def Obligations.GtAnswersAhead : Prop :=
  (∀ (a b : Operand) (s : State), SeqOperand a → SeqOperand b →
    exec (.gt a b) s = .next (answered s 3 (if 0 < signedRep a.val.toNat - signedRep b.val.toNat then 1 else 0) false)) ∧
  (∀ (a b : Operand) (s : State), a.kind = .int ∨ b.kind = .int → exec (.gt a b) s = .next (failed s 2)) ∧
  (∀ (a b : Operand) (s : State), a.kind = .seq → b.kind = .seq → 256 ≤ a.val.toNat ∨ 256 ≤ b.val.toNat →
    exec (.gt a b) s = .next (failed s 3)) ∧
  (∀ c : Command, (∃ a b, decode c = .ok (.gt a b)) ↔ c.cmd = 0x06)

/-- R70: `GE`. -/
def Obligations.GeAnswersAheadOrEqual : Prop :=
  (∀ (a b : Operand) (s : State), SeqOperand a → SeqOperand b →
    exec (.ge a b) s = .next (answered s 3 (if 0 ≤ signedRep a.val.toNat - signedRep b.val.toNat then 1 else 0) false)) ∧
  (∀ (a b : Operand) (s : State), a.kind = .int ∨ b.kind = .int → exec (.ge a b) s = .next (failed s 2)) ∧
  (∀ (a b : Operand) (s : State), a.kind = .seq → b.kind = .seq → 256 ≤ a.val.toNat ∨ 256 ≤ b.val.toNat →
    exec (.ge a b) s = .next (failed s 3)) ∧
  (∀ c : Command, (∃ a b, decode c = .ok (.ge a b)) ↔ c.cmd = 0x07)

/-- R71: `EQ`, raw equality, which is also a distance of 0. -/
def Obligations.EqAnswersRawEquality : Prop :=
  (∀ (a b : Operand) (s : State), SeqOperand a → SeqOperand b →
    exec (.eq a b) s = .next (answered s 3 (if a.val = b.val then 1 else 0) false) ∧
    (a.val = b.val ↔ signedRep a.val.toNat - signedRep b.val.toNat = 0)) ∧
  (∀ (a b : Operand) (s : State), a.kind = .int ∨ b.kind = .int → exec (.eq a b) s = .next (failed s 2)) ∧
  (∀ (a b : Operand) (s : State), a.kind = .seq → b.kind = .seq → 256 ≤ a.val.toNat ∨ 256 ≤ b.val.toNat →
    exec (.eq a b) s = .next (failed s 3)) ∧
  (∀ c : Command, (∃ a b, decode c = .ok (.eq a b)) ↔ c.cmd = 0x08)

/-- R72: the four predicates are one linear order of the 256 sequence numbers, from 128 up to 127. -/
def Obligations.PredicatesAreOneLinearOrder : Prop :=
  ∀ (x y z : SeqNum) (s : State),
    (valueOf (.lt (seqOperand x) (seqOperand y)) s = 1 ↔ signedRep x.toNat < signedRep y.toNat) ∧
    (valueOf (.le (seqOperand x) (seqOperand y)) s = 1 ↔ signedRep x.toNat ≤ signedRep y.toNat) ∧
    (valueOf (.gt (seqOperand x) (seqOperand y)) s = 1 ↔ signedRep y.toNat < signedRep x.toNat) ∧
    (valueOf (.ge (seqOperand x) (seqOperand y)) s = 1 ↔ signedRep y.toNat ≤ signedRep x.toNat) ∧
    (x = y ∨ valueOf (.lt (seqOperand x) (seqOperand y)) s = 1 ∨ valueOf (.lt (seqOperand y) (seqOperand x)) s = 1) ∧
    (valueOf (.lt (seqOperand x) (seqOperand y)) s = 1 → valueOf (.lt (seqOperand y) (seqOperand z)) s = 1 →
      valueOf (.lt (seqOperand x) (seqOperand z)) s = 1) ∧
    (x ≠ 127 → valueOf (.lt (seqOperand x) (seqOperand (x + 1))) s = 1) ∧
    (x ≠ 128 → valueOf (.lt (seqOperand 128) (seqOperand x)) s = 1) ∧
    (x ≠ 127 → valueOf (.lt (seqOperand x) (seqOperand 127)) s = 1)

/-- R73: trichotomy and duality. -/
def Obligations.PredicatesObeyTrichotomyAndDuality : Prop :=
  ∀ (x y : SeqNum) (s : State),
    let lt := valueOf (.lt (seqOperand x) (seqOperand y)) s
    let le := valueOf (.le (seqOperand x) (seqOperand y)) s
    let gt := valueOf (.gt (seqOperand x) (seqOperand y)) s
    let ge := valueOf (.ge (seqOperand x) (seqOperand y)) s
    let eq := valueOf (.eq (seqOperand x) (seqOperand y)) s
    ((lt = 1 ∧ eq = 0 ∧ gt = 0) ∨ (lt = 0 ∧ eq = 1 ∧ gt = 0) ∨ (lt = 0 ∧ eq = 0 ∧ gt = 1)) ∧
    le = lt ||| eq ∧ ge = gt ||| eq ∧ le = 1 - gt ∧
    gt = valueOf (.lt (seqOperand y) (seqOperand x)) s ∧
    ge = valueOf (.le (seqOperand y) (seqOperand x)) s

/-- R74: the order is not invariant under rotation: (126, 127) and the pair one step on. -/
def Obligations.OrderIsNotRotationInvariant : Prop :=
  ∀ s : State,
    valueOf (.lt (seqOperand 126) (seqOperand 127)) s = 1 ∧
    valueOf (.lt (feedBack (valueOf (.add (seqOperand 126) (intOperand 1)) s))
      (feedBack (valueOf (.add (seqOperand 127) (intOperand 1)) s))) s = 0

/-- R75: the predicates agree with the circular comparison exactly where the distance lies in [-128, 127], and answer the
opposite elsewhere. -/
def Obligations.PredicatesAgainstTheCircularOrder : Prop :=
  ∀ (x y : SeqNum) (s : State),
    let d := (valueOf (.dist (seqOperand x) (seqOperand y)) s).toInt
    (d.sign = (circular x y).sign ↔ -128 ≤ d ∧ d ≤ 127) ∧
    (¬(-128 ≤ d ∧ d ≤ 127) →
      (valueOf (.gt (seqOperand x) (seqOperand y)) s = 1 ↔ circular x y < 0) ∧
      (valueOf (.ge (seqOperand x) (seqOperand y)) s = 1 ↔ circular x y < 0) ∧
      (valueOf (.lt (seqOperand x) (seqOperand y)) s = 1 ↔ 0 < circular x y) ∧
      (valueOf (.le (seqOperand x) (seqOperand y)) s = 1 ↔ 0 < circular x y))

/-- R76: the safe zone. On one side of the 127/128 boundary the distance is at most 127 and every predicate agrees with the
circular comparison; across it, the same when the arc through 0 is the shorter, while the distance is at least 129 and the
orderings disagree when the arc through 128 is; the half-way pairs agree at -128 and disagree at 128. -/
def Obligations.SafeZoneOfThePredicates : Prop :=
  ∀ (x y : SeqNum) (s : State),
    let d := (valueOf (.dist (seqOperand x) (seqOperand y)) s).toInt
    ((x.toNat ≤ 127 ↔ y.toNat ≤ 127) → d.natAbs ≤ 127 ∧ AgreesWithCircular x y s) ∧
    (∀ (lo hi : SeqNum), (x = lo ∧ y = hi) ∨ (x = hi ∧ y = lo) → lo.toNat ≤ 127 → 128 ≤ hi.toNat →
      (lo.toNat + 256 - hi.toNat < hi.toNat - lo.toNat → d.natAbs ≤ 127 ∧ AgreesWithCircular x y s) ∧
      (hi.toNat - lo.toNat < lo.toNat + 256 - hi.toNat → 129 ≤ d.natAbs ∧ DisagreesWithCircular x y s) ∧
      (hi.toNat - lo.toNat = lo.toNat + 256 - hi.toNat → d = -128 ∨ d = 128)) ∧
    (d = -128 → AgreesWithCircular x y s) ∧ (d = 128 → DisagreesWithCircular x y s)

/-! ## The srange enumerator: 42 -/

/-- R79, R86: `SRSTART` replaces all four iterator registers. -/
def Obligations.SrstartLoadsTheRange : Prop :=
  (∀ (a b : Operand) (s : State), SeqOperand a → SeqOperand b →
    exec (.srstart a b) s =
      .next { s with
        srStart := BitVec.ofNat 8 a.val.toNat
        srEnd := BitVec.ofNat 8 b.val.toNat
        srCur := BitVec.ofNat 8 a.val.toNat
        srLoaded := true
        rsp := ⟨true, 0, 0, 0, false⟩ }) ∧
  (∀ (a b : Operand) (s : State), a.kind = .int ∨ b.kind = .int → exec (.srstart a b) s = .next (failed s 2)) ∧
  (∀ (a b : Operand) (s : State), a.kind = .seq → b.kind = .seq → 256 ≤ a.val.toNat ∨ 256 ≤ b.val.toNat →
    exec (.srstart a b) s = .next (failed s 3)) ∧
  (∀ c : Command, (∃ a b, decode c = .ok (.srstart a b)) ↔ c.cmd = 0x09)

/-- R80: `SRNEXT`. -/
def Obligations.SrnextTakesTheNextElement : Prop :=
  (∀ (a b : Operand) (s : State), s.srLoaded = true → s.srCur ≠ s.srEnd →
    exec (.srnext a b) s =
      .next { s with
        srCur := BitVec.ofNat 8 ((s.srCur.toNat + 1) % 256)
        rsp := ⟨true, 0, 1, BitVec.ofNat Config.intW s.srCur.toNat, false⟩ }) ∧
  (∀ (a b : Operand) (s : State), s.srLoaded = true → s.srCur = s.srEnd →
    exec (.srnext a b) s = .next (answered s 0 0 true)) ∧
  (∀ (a b : Operand) (s : State), s.srLoaded = false → exec (.srnext a b) s = .next (failed s 4)) ∧
  (∀ c : Command, (∃ a b, decode c = .ok (.srnext a b)) ↔ c.cmd &&& 0xCF = 0x0A)

/-- R81: `SRRESTART`. -/
def Obligations.SrrestartReturnsToTheStart : Prop :=
  (∀ (a b : Operand) (s : State), s.srLoaded = true →
    exec (.srrestart a b) s = .next { s with srCur := s.srStart, rsp := ⟨true, 0, 0, 0, false⟩ }) ∧
  (∀ (a b : Operand) (s : State), s.srLoaded = false → exec (.srrestart a b) s = .next (failed s 4)) ∧
  (∀ c : Command, (∃ a b, decode c = .ok (.srrestart a b)) ↔ c.cmd &&& 0xCF = 0x0B)

/-- R82, R83, R84: after `SRSTART x, y` on any state, the `i`-th `SRNEXT` (from 0) returns `(x + i) mod 256` while `i` is below
`(y − x) mod 256`, and reports done from then on, every time; no element repeats and `y` is never returned. -/
def Obligations.SrnextEnumeratesTheRange : Prop :=
  ∀ (x y : SeqNum) (s : State) (es : List Edge) (i : Nat),
    s.inputs = present (.srstart (seqOperand x) (seqOperand y)) :: (List.replicate (i + 1) (present nextCommand) ++ es) →
    ∃ t, Runs (i + 2) s t ∧ t.srLoaded = true ∧ t.srStart = x ∧ t.srEnd = y ∧ t.stickyErr = s.stickyErr ∧ t.inputs = es ∧
      (i < (y.toNat + 256 - x.toNat) % 256 →
        t.rsp = ⟨true, 0, 1, BitVec.ofNat Config.intW ((x.toNat + i) % 256), false⟩ ∧ (x.toNat + i) % 256 ≠ y.toNat ∧
        ∀ j < i, (x.toNat + j) % 256 ≠ (x.toNat + i) % 256) ∧
      ((y.toNat + 256 - x.toNat) % 256 ≤ i → t.rsp = ⟨true, 0, 0, 0, true⟩ ∧ t.srCur = y)

/-- R85: after `SRRESTART` on any held sequence, at any point of it, the same elements come again in the same order, then
done. -/
def Obligations.SrrestartEnumeratesTheRangeAgain : Prop :=
  ∀ (s : State) (es : List Edge) (i : Nat), s.srLoaded = true →
    s.inputs = present restartCommand :: (List.replicate (i + 1) (present nextCommand) ++ es) →
    ∃ t, Runs (i + 2) s t ∧ t.srLoaded = true ∧ t.srStart = s.srStart ∧ t.srEnd = s.srEnd ∧ t.inputs = es ∧
      (i < (s.srEnd.toNat + 256 - s.srStart.toNat) % 256 →
        t.rsp = ⟨true, 0, 1, BitVec.ofNat Config.intW ((s.srStart.toNat + i) % 256), false⟩) ∧
      ((s.srEnd.toNat + 256 - s.srStart.toNat) % 256 ≤ i → t.rsp = ⟨true, 0, 0, 0, true⟩)

/-! ## Responses and errors: 60 -/

/-- R89, R20: done is reported only by an `SRNEXT` on a held, exhausted sequence. -/
def Obligations.DoneComesOnlyFromAnExhaustedSrnext : Prop :=
  ∀ (i : Instr) (s t : State), exec i s = .next t →
    (t.rsp.done = true ↔ (∃ a b, i = .srnext a b) ∧ s.srLoaded = true ∧ s.srCur = s.srEnd)

/-- R90: the result kind of every command that succeeds, and `NONE` with value 0 on every error. -/
def Obligations.ResultKindsFollowTheTable : Prop :=
  ∀ (i : Instr) (s : State), ∃ t, exec i s = .next t ∧ t.rsp.valid = true ∧
    (t.rsp.err = 0 → t.rsp.kind = kindColumn i t.rsp.done) ∧ (t.rsp.err ≠ 0 → t.rsp.kind = 0 ∧ t.rsp.val = 0)

/-- R92: a decoded command ends only in the errors its row of the table names. -/
def Obligations.ErrorsAreRaisedOnlyByTheirCommands : Prop :=
  ∀ (i : Instr) (s t : State), exec i s = .next t → t.rsp.err ≠ 0 → raisesColumn i t.rsp.err

/-- R94: an accepted command reports exactly the first of its error causes in the order given, and runs the operation when it
meets none. -/
def Obligations.FirstErrorCauseIsReported : Prop :=
  ∀ (c : Command) (s : State),
    (firstError s c ≠ 0 → acceptCommand c s = .next (failed s (firstError s c))) ∧
    (firstError s c = 0 → ∃ i t, decode c = .ok i ∧ acceptCommand c s = exec i s ∧ exec i s = .next t ∧ t.rsp.err = 0)

/-- R93, R95: an accepted command that ends in error changes nothing but the sticky bit and the response, and every later
command, after any number of others, then runs as if it had not been issued, apart from the sticky bit. -/
def Obligations.ErrorsArePrecise : Prop :=
  ∀ (c : Command) (s t : State), acceptCommand c s = .next t → t.rsp.err ≠ 0 →
    t = failed s t.rsp.err ∧
    ∀ (d : Command) (ds : List Command), ∃ u, acceptAll (d :: ds) s = .next u ∧
      acceptAll (d :: ds) t = .next { u with stickyErr := true }

/-! ## Reset, hazards and timing: 70 -/

/-- R105, R106: an edge with `rst = 1` gives every register its reset value, whatever is on the request port. -/
def Obligations.ResetEdgeWinsOverACommand : Prop :=
  ∀ (s : State) (e : Edge) (es : List Edge), s.inputs = e :: es → e.rst = true →
    step s =
      .next
        { srStart := 0, srEnd := 0, srCur := 0, srLoaded := false, stickyErr := false, rsp := ⟨false, 0, 0, 0, false⟩,
          inputs := es, idleCount := s.idleCount }

/-- R113: `SUBN` with the second number as a count gives the circular distance and the window test, for every pair. -/
def Obligations.SubnGivesTheCircularDistance : Prop :=
  ∀ (x b : SeqNum) (s : State),
    signedRep (valueOf (.subn (seqOperand x) (intOperand (b.toNat : Int))) s).toNat = circular x b ∧
    (∀ n : Nat, n ≤ 127 → ((∃ j < n, x.toNat = (b.toNat + j) % 256) ↔
      (valueOf (.subn (seqOperand x) (intOperand (b.toNat : Int))) s).toNat < n))

/-- R118: an idle edge before a command or a reset changes no result and no register after it; only the model's own count of
idle edges differs. -/
def Obligations.IdleEdgesChangeNoResult : Prop :=
  ∀ (s : State) (q e : Edge) (es : List Edge), s.inputs = q :: e :: es → q.rst = false → q.reqValid = false →
    (e.rst = true ∨ e.reqValid = true) →
    ∃ t, Runs 1 { s with inputs := e :: es } t ∧ Runs 2 s { t with idleCount := s.idleCount + 1 }

/-! ## The whole machine -/

/-- R39, R99, R117: no edge stops the block: every step answers a next state, so every run reaches its end. -/
def Obligations.NoRunEverStops : Prop :=
  ∀ (n : Nat) (s : State), ∃ t, Runs n s t

/-- The reset state meets the invariants. -/
def Obligations.ResetMeetsTheInvariants : Prop := Inv State.reset

/-- R25, R26, R92, R96: every step, reset and idle edges included, keeps the invariants together: the forward path, the
well-formed response, the remembered error; the block keeps them on ports of every width of at least 9 bits. -/
def Obligations.EveryStepKeepsTheInvariants : Prop :=
  (∀ (s t : State), Inv s → step s = .next t → Inv t) ∧
  (∀ (w : Nat) (s t : State w), 9 ≤ w → Inv s → stepAt s = .next t → Inv t)
end

