-- ==== Sys2Proof/Laws/Decode.lean ====
section
/-! SUPPORT. Everything the decoder can answer (R50), and the operand constructors the op field selects. -/

namespace Sys2Proof

/-- Everything the decoder can answer: a rejection by reserved bits or reserved `op`, a rejection by a kind, or the command
the `op` field selects, with the kinds met. -/
theorem decode_cases {w : Nat} (c : Command w) :
    ((cmdRsv c ≠ 0 ∨ instrOfOp (cmdOp c).toNat (cmdA c) (cmdB c) = none) ∧ decode c = .error .illegalCmd) ∨
    (cmdRsv c = 0 ∧ ∃ i, instrOfOp (cmdOp c).toNat (cmdA c) (cmdB c) = some i ∧
      (((kindMeets (reqKinds (cmdOp c).toNat).1 (cmdA c).kind = false ∨
          kindMeets (reqKinds (cmdOp c).toNat).2 (cmdB c).kind = false) ∧ decode c = .error .typeError) ∨
       (kindMeets (reqKinds (cmdOp c).toNat).1 (cmdA c).kind = true ∧
          kindMeets (reqKinds (cmdOp c).toNat).2 (cmdB c).kind = true ∧ decode c = .ok i))) := by
  by_cases hr : cmdRsv c = 0
  · cases hi : instrOfOp (cmdOp c).toNat (cmdA c) (cmdB c) with
    | none => exact .inl ⟨.inr rfl, by simp [decode, hr, hi]⟩
    | some i =>
      refine .inr ⟨hr, i, rfl, ?_⟩
      cases ha : kindMeets (reqKinds (cmdOp c).toNat).1 (cmdA c).kind with
      | false => exact .inl ⟨.inl rfl, by simp [decode, hr, hi, ha]⟩
      | true =>
        cases hb : kindMeets (reqKinds (cmdOp c).toNat).2 (cmdB c).kind with
        | false => exact .inl ⟨.inr rfl, by simp [decode, hr, hi, ha, hb]⟩
        | true => exact .inr ⟨rfl, rfl, by simp [decode, hr, hi, ha, hb]⟩
  · exact .inl ⟨.inl hr, by rw [decode, if_pos hr]⟩

/-- What the op field selects keeps both operands. -/
theorem instrOfOp_operands {w op : Nat} {a b : Operand w} {i : Instr w} (h : instrOfOp op a b = some i) :
    i.opA = a ∧ i.opB = b := by
  unfold instrOfOp at h
  split at h
  all_goals first
    | (cases h; exact ⟨rfl, rfl⟩)
    | cases h

/-- The kind check of the decoder is the well-formedness of the command it selects (R42). -/
theorem wellFormed_of_kindMeets {w op : Nat} {a b : Operand w} {i : Instr w} (h : instrOfOp op a b = some i) :
    i.wellFormed = (kindMeets (reqKinds op).1 a.kind && kindMeets (reqKinds op).2 b.kind) := by
  unfold instrOfOp at h
  split at h
  all_goals first
    | (cases h; simp [Instr.wellFormed, reqKinds, kindMeets])
    | cases h

/-- A decoder rejects only as `ILLEGAL_CMD` or `TYPE_ERROR` (R48). -/
theorem decode_error {w : Nat} {c : Command w} {e : CmdError} (h : decode c = .error e) : e = .illegalCmd ∨ e = .typeError := by
  rcases decode_cases c with ⟨-, hd⟩ | ⟨-, i, -, ⟨-, hd⟩ | ⟨-, -, hd⟩⟩ <;> rw [hd] at h <;> cases h <;> simp

theorem kindOfBit_bitOfKind (k : Kind) : kindOfBit (bitOfKind k) = k := by cases k <;> decide

end Sys2Proof
end

