-- ==== Sys2Proof/Laws/State.lean ====
section
/-! SUPPORT. What every named update leaves in every field of the state: one lemma per field per update. -/

namespace Sys2Proof.Machine

@[simp] theorem respond_srStart {w : Nat} (k : ResultKind) (v : Word w) (d : Bool) (s : State w) : (respond k v d s).srStart = s.srStart := rfl
@[simp] theorem respond_srEnd {w : Nat} (k : ResultKind) (v : Word w) (d : Bool) (s : State w) : (respond k v d s).srEnd = s.srEnd := rfl
@[simp] theorem respond_srCur {w : Nat} (k : ResultKind) (v : Word w) (d : Bool) (s : State w) : (respond k v d s).srCur = s.srCur := rfl
@[simp] theorem respond_srLoaded {w : Nat} (k : ResultKind) (v : Word w) (d : Bool) (s : State w) : (respond k v d s).srLoaded = s.srLoaded := rfl
@[simp] theorem respond_stickyErr {w : Nat} (k : ResultKind) (v : Word w) (d : Bool) (s : State w) : (respond k v d s).stickyErr = s.stickyErr := rfl
@[simp] theorem respond_rsp {w : Nat} (k : ResultKind) (v : Word w) (d : Bool) (s : State w) : (respond k v d s).rsp = { valid := true, err := okCode, kind := kindCode k, val := v, done := d } := rfl
@[simp] theorem respond_inputs {w : Nat} (k : ResultKind) (v : Word w) (d : Bool) (s : State w) : (respond k v d s).inputs = s.inputs := rfl
@[simp] theorem respond_idleCount {w : Nat} (k : ResultKind) (v : Word w) (d : Bool) (s : State w) : (respond k v d s).idleCount = s.idleCount := rfl

@[simp] theorem raise_srStart {w : Nat} (e : CmdError) (s : State w) : (raise e s).srStart = s.srStart := rfl
@[simp] theorem raise_srEnd {w : Nat} (e : CmdError) (s : State w) : (raise e s).srEnd = s.srEnd := rfl
@[simp] theorem raise_srCur {w : Nat} (e : CmdError) (s : State w) : (raise e s).srCur = s.srCur := rfl
@[simp] theorem raise_srLoaded {w : Nat} (e : CmdError) (s : State w) : (raise e s).srLoaded = s.srLoaded := rfl
@[simp] theorem raise_stickyErr {w : Nat} (e : CmdError) (s : State w) : (raise e s).stickyErr = true := rfl
@[simp] theorem raise_rsp {w : Nat} (e : CmdError) (s : State w) : (raise e s).rsp = { valid := true, err := errCode e, kind := kindCode .none, val := 0, done := false } := rfl
@[simp] theorem raise_inputs {w : Nat} (e : CmdError) (s : State w) : (raise e s).inputs = s.inputs := rfl
@[simp] theorem raise_idleCount {w : Nat} (e : CmdError) (s : State w) : (raise e s).idleCount = s.idleCount := rfl

@[simp] theorem loadRange_srStart {w : Nat} (x y : SeqNum) (s : State w) : (loadRange x y s).srStart = x := rfl
@[simp] theorem loadRange_srEnd {w : Nat} (x y : SeqNum) (s : State w) : (loadRange x y s).srEnd = y := rfl
@[simp] theorem loadRange_srCur {w : Nat} (x y : SeqNum) (s : State w) : (loadRange x y s).srCur = x := rfl
@[simp] theorem loadRange_srLoaded {w : Nat} (x y : SeqNum) (s : State w) : (loadRange x y s).srLoaded = true := rfl
@[simp] theorem loadRange_stickyErr {w : Nat} (x y : SeqNum) (s : State w) : (loadRange x y s).stickyErr = s.stickyErr := rfl
@[simp] theorem loadRange_rsp {w : Nat} (x y : SeqNum) (s : State w) : (loadRange x y s).rsp = s.rsp := rfl
@[simp] theorem loadRange_inputs {w : Nat} (x y : SeqNum) (s : State w) : (loadRange x y s).inputs = s.inputs := rfl
@[simp] theorem loadRange_idleCount {w : Nat} (x y : SeqNum) (s : State w) : (loadRange x y s).idleCount = s.idleCount := rfl

@[simp] theorem setCur_srStart {w : Nat} (x : SeqNum) (s : State w) : (setCur x s).srStart = s.srStart := rfl
@[simp] theorem setCur_srEnd {w : Nat} (x : SeqNum) (s : State w) : (setCur x s).srEnd = s.srEnd := rfl
@[simp] theorem setCur_srCur {w : Nat} (x : SeqNum) (s : State w) : (setCur x s).srCur = x := rfl
@[simp] theorem setCur_srLoaded {w : Nat} (x : SeqNum) (s : State w) : (setCur x s).srLoaded = s.srLoaded := rfl
@[simp] theorem setCur_stickyErr {w : Nat} (x : SeqNum) (s : State w) : (setCur x s).stickyErr = s.stickyErr := rfl
@[simp] theorem setCur_rsp {w : Nat} (x : SeqNum) (s : State w) : (setCur x s).rsp = s.rsp := rfl
@[simp] theorem setCur_inputs {w : Nat} (x : SeqNum) (s : State w) : (setCur x s).inputs = s.inputs := rfl
@[simp] theorem setCur_idleCount {w : Nat} (x : SeqNum) (s : State w) : (setCur x s).idleCount = s.idleCount := rfl

@[simp] theorem resetEdge_srStart {w : Nat} (s : State w) : (resetEdge s).srStart = 0 := rfl
@[simp] theorem resetEdge_srEnd {w : Nat} (s : State w) : (resetEdge s).srEnd = 0 := rfl
@[simp] theorem resetEdge_srCur {w : Nat} (s : State w) : (resetEdge s).srCur = 0 := rfl
@[simp] theorem resetEdge_srLoaded {w : Nat} (s : State w) : (resetEdge s).srLoaded = false := rfl
@[simp] theorem resetEdge_stickyErr {w : Nat} (s : State w) : (resetEdge s).stickyErr = false := rfl
@[simp] theorem resetEdge_rsp {w : Nat} (s : State w) : (resetEdge s).rsp = (Registers.reset w).rsp := rfl
@[simp] theorem resetEdge_inputs {w : Nat} (s : State w) : (resetEdge s).inputs = s.inputs := rfl
@[simp] theorem resetEdge_idleCount {w : Nat} (s : State w) : (resetEdge s).idleCount = s.idleCount := rfl

@[simp] theorem idleEdge_srStart {w : Nat} (s : State w) : (idleEdge s).srStart = s.srStart := rfl
@[simp] theorem idleEdge_srEnd {w : Nat} (s : State w) : (idleEdge s).srEnd = s.srEnd := rfl
@[simp] theorem idleEdge_srCur {w : Nat} (s : State w) : (idleEdge s).srCur = s.srCur := rfl
@[simp] theorem idleEdge_srLoaded {w : Nat} (s : State w) : (idleEdge s).srLoaded = s.srLoaded := rfl
@[simp] theorem idleEdge_stickyErr {w : Nat} (s : State w) : (idleEdge s).stickyErr = s.stickyErr := rfl
@[simp] theorem idleEdge_rsp {w : Nat} (s : State w) : (idleEdge s).rsp =
      { valid := false
        err := Config.idleErr s.idleCount s.rsp.err
        kind := Config.idleKind s.idleCount s.rsp.kind
        val := Config.idleVal s.idleCount s.rsp.val
        done := Config.idleDone s.idleCount s.rsp.done } := rfl
@[simp] theorem idleEdge_inputs {w : Nat} (s : State w) : (idleEdge s).inputs = s.inputs := rfl
@[simp] theorem idleEdge_idleCount {w : Nat} (s : State w) : (idleEdge s).idleCount = s.idleCount + 1 := rfl

@[simp] theorem dropInput_srStart {w : Nat} (s : State w) : (dropInput s).srStart = s.srStart := rfl
@[simp] theorem dropInput_srEnd {w : Nat} (s : State w) : (dropInput s).srEnd = s.srEnd := rfl
@[simp] theorem dropInput_srCur {w : Nat} (s : State w) : (dropInput s).srCur = s.srCur := rfl
@[simp] theorem dropInput_srLoaded {w : Nat} (s : State w) : (dropInput s).srLoaded = s.srLoaded := rfl
@[simp] theorem dropInput_stickyErr {w : Nat} (s : State w) : (dropInput s).stickyErr = s.stickyErr := rfl
@[simp] theorem dropInput_rsp {w : Nat} (s : State w) : (dropInput s).rsp = s.rsp := rfl
@[simp] theorem dropInput_inputs {w : Nat} (s : State w) : (dropInput s).inputs = s.inputs.tail := rfl
@[simp] theorem dropInput_idleCount {w : Nat} (s : State w) : (dropInput s).idleCount = s.idleCount := rfl

@[simp] theorem pushInput_srStart {w : Nat} (e : Edge w) (s : State w) : (pushInput e s).srStart = s.srStart := rfl
@[simp] theorem pushInput_srEnd {w : Nat} (e : Edge w) (s : State w) : (pushInput e s).srEnd = s.srEnd := rfl
@[simp] theorem pushInput_srCur {w : Nat} (e : Edge w) (s : State w) : (pushInput e s).srCur = s.srCur := rfl
@[simp] theorem pushInput_srLoaded {w : Nat} (e : Edge w) (s : State w) : (pushInput e s).srLoaded = s.srLoaded := rfl
@[simp] theorem pushInput_stickyErr {w : Nat} (e : Edge w) (s : State w) : (pushInput e s).stickyErr = s.stickyErr := rfl
@[simp] theorem pushInput_rsp {w : Nat} (e : Edge w) (s : State w) : (pushInput e s).rsp = s.rsp := rfl
@[simp] theorem pushInput_inputs {w : Nat} (e : Edge w) (s : State w) : (pushInput e s).inputs = e :: s.inputs := rfl
@[simp] theorem pushInput_idleCount {w : Nat} (e : Edge w) (s : State w) : (pushInput e s).idleCount = s.idleCount := rfl

end Sys2Proof.Machine
end

