-- ==== Sys2Proof/Laws/Values.lean ====
section
/-! SUPPORT. What the value functions compute, in integers, at every port width the spec allows: construction and steps, the
signed representative and the distance, and the readings of an operand port. -/

namespace Sys2Proof.Machine

theorem modSeq_toNat (n : Int) : ((modSeq n).toNat : Int) = n % 256 := by
  simp only [modSeq, BitVec.toNat_ofInt]
  omega

theorem modSeq_add_256 (n k : Int) : modSeq (n + 256 * k) = modSeq n := by
  apply BitVec.eq_of_toNat_eq
  have h1 := modSeq_toNat (n + 256 * k)
  have h2 := modSeq_toNat n
  omega

theorem stepForward_toNat (a : SeqNum) (n : Int) : ((stepForward a n).toNat : Int) = ((a.toNat : Int) + n) % 256 :=
  modSeq_toNat _

theorem stepBackward_toNat (a : SeqNum) (n : Int) : ((stepBackward a n).toNat : Int) = ((a.toNat : Int) - n) % 256 :=
  modSeq_toNat _

/-- R8: `signed8` is the two's-complement reading of the 8 bits. -/
theorem signed8_eq_toInt (x : SeqNum) : signed8 x = x.toInt := by
  rw [signed8, BitVec.toInt_eq_toNat_cond]
  split <;> split <;> omega

theorem signed8_bounds (x : SeqNum) : -128 ≤ signed8 x ∧ signed8 x ≤ 127 := by
  have := x.isLt
  unfold signed8
  split <;> omega

/-- R55: a distance lies in [-255, 255]. -/
theorem distance_bounds (a b : SeqNum) : -255 ≤ distance a b ∧ distance a b ≤ 255 := by
  have := signed8_bounds a
  have := signed8_bounds b
  unfold distance
  omega

theorem distance_eq_toInt (a b : SeqNum) : distance a b = a.toInt - b.toInt := by
  rw [distance, signed8_eq_toInt, signed8_eq_toInt]

theorem signed8_injective {a b : SeqNum} (h : signed8 a = signed8 b) : a = b := by
  rw [signed8_eq_toInt, signed8_eq_toInt] at h
  exact BitVec.eq_of_toInt_eq h

theorem seqBits_toNat {w : Nat} (hw : 8 ≤ w) (x : SeqNum) : (seqBits x : BitVec w).toNat = x.toNat := by
  have := x.isLt
  have : 2 ^ 8 ≤ 2 ^ w := Nat.pow_le_pow_right (by decide) hw
  rw [seqBits, BitVec.toNat_setWidth, Nat.mod_eq_of_lt (by omega)]

theorem boolBits_toNat {w : Nat} (hw : 1 ≤ w) (p : Bool) : (boolBits p : BitVec w).toNat = p.toNat := by
  have : 2 ^ 1 ≤ 2 ^ w := Nat.pow_le_pow_right (by decide) hw
  have : p.toNat < 2 := p.toNat_lt
  rw [boolBits, BitVec.toNat_setWidth, BitVec.toNat_ofBool, Nat.mod_eq_of_lt (by omega)]

/-- A normalised port value is one below 256 (R12). -/
theorem isNormalized_iff {w : Nat} (hw : 8 ≤ w) (v : BitVec w) : isNormalized v = true ↔ v.toNat < 256 := by
  have hlt : v.toNat / 2 ^ 8 < 2 ^ (w - 8) := by
    apply Nat.div_lt_of_lt_mul
    rw [← Nat.pow_add, Nat.add_sub_cancel' hw]
    exact v.isLt
  have hz : (upperBits v).toNat = v.toNat / 2 ^ 8 := by
    rw [upperBits, BitVec.extractLsb'_toNat, Nat.shiftRight_eq_div_pow, Nat.mod_eq_of_lt hlt]
  rw [isNormalized, decide_eq_true_iff, ← BitVec.toNat_inj, hz]
  rw [show (0 : BitVec (w - 8)).toNat = 0 by simp]
  omega

theorem isNormalized_eq_false_iff {w : Nat} (hw : 8 ≤ w) (v : BitVec w) : isNormalized v = false ↔ 256 ≤ v.toNat := by
  rw [← Bool.not_eq_true, isNormalized_iff hw]
  omega

theorem seqOf_toNat {w : Nat} (v : BitVec w) : (seqOf v).toNat = v.toNat % 256 := by
  rw [seqOf, BitVec.extractLsb'_toNat, Nat.shiftRight_zero]

/-- A sequence number put on a port is read back from it (R90). -/
theorem seqOf_seqBits {w : Nat} (hw : 8 ≤ w) (x : SeqNum) : seqOf (seqBits x : BitVec w) = x := by
  have := x.isLt
  apply BitVec.eq_of_toNat_eq
  rw [seqOf_toNat, seqBits_toNat hw]
  omega

theorem isNormalized_seqBits {w : Nat} (hw : 8 ≤ w) (x : SeqNum) : isNormalized (seqBits x : BitVec w) = true := by
  rw [isNormalized_iff hw, seqBits_toNat hw]
  exact x.isLt

/-- R43: modulo 256, the two's-complement and the unsigned reading of a port agree. -/
theorem intOf_emod {w : Nat} (hw : 8 ≤ w) (v : BitVec w) : intOf v % 256 = (v.toNat : Int) % 256 := by
  have hd : (256 : Int) ∣ ((2 ^ w : Nat) : Int) := by
    have : (2 : Nat) ^ 8 ∣ 2 ^ w := Nat.pow_dvd_pow 2 hw
    exact_mod_cast this
  obtain ⟨k, hk⟩ := hd
  rw [intOf, BitVec.toInt_eq_toNat_cond]
  split <;> omega

/-- R43: modulo 256, an `INT` operand is its low 8 bits. -/
theorem modSeq_intOf {w : Nat} (hw : 8 ≤ w) (v : BitVec w) : modSeq (intOf v) = seqOf v := by
  apply BitVec.eq_of_toNat_eq
  have h := modSeq_toNat (intOf v)
  rw [intOf_emod hw] at h
  rw [seqOf_toNat]
  omega

/-- A step depends on the count only modulo 256 (R59). -/
theorem stepForward_congr (a : SeqNum) {m n : Int} (h : modSeq m = modSeq n) : stepForward a m = stepForward a n := by
  apply BitVec.eq_of_toNat_eq
  have h1 := stepForward_toNat a m
  have h2 := stepForward_toNat a n
  have h3 := modSeq_toNat m
  have h4 := modSeq_toNat n
  rw [h] at h3
  omega

theorem stepBackward_eq_stepForward_neg (a : SeqNum) (n : Int) : stepBackward a n = stepForward a (-n) := by
  rw [stepBackward, stepForward, Int.sub_eq_add_neg]

end Sys2Proof.Machine
end

