-- ==== Sys2Proof/Laws/Operands.lean ====
section
/-! SUPPORT. What reading operands can answer, once for each operand form: the success exactly under the conditions of R42 and
R44, and otherwise the first error of R94. -/

namespace Sys2Proof.Machine

/-- A used `SEQ` operand is readable exactly when its kind is `SEQ` and its value is below 256. -/
abbrev ReadableSeq {w : Nat} (a : Operand w) : Prop := a.kind = .seq ∧ a.val.toNat < 256

theorem kind_ne_seq_iff (k : Kind) : k ≠ .seq ↔ k = .int := by cases k <;> decide

theorem kind_ne_int_iff (k : Kind) : k ≠ .int ↔ k = .seq := by cases k <;> decide

/-- The default width holds a sequence number. -/
theorem eight_le_intW : 8 ≤ Config.intW := Nat.le_of_succ_le Config.nine_le_intW

theorem readSeqSeq_ok {w : Nat} (hw : 8 ≤ w) {a b : Operand w} (ha : ReadableSeq a) (hb : ReadableSeq b) :
    readSeqSeq a b = .ok (seqOf a.val, seqOf b.val) := by
  have na := (isNormalized_iff hw a.val).mpr ha.2
  have nb := (isNormalized_iff hw b.val).mpr hb.2
  simp [readSeqSeq, ha.1, hb.1, na, nb]

theorem readSeqSeq_typeError {w : Nat} {a b : Operand w} (h : a.kind = .int ∨ b.kind = .int) :
    readSeqSeq a b = .error .typeError := by
  rcases h with h | h <;> simp [readSeqSeq, h]

theorem readSeqSeq_notNormalized {w : Nat} (hw : 8 ≤ w) {a b : Operand w} (ha : a.kind = .seq) (hb : b.kind = .seq)
    (h : 256 ≤ a.val.toNat ∨ 256 ≤ b.val.toNat) : readSeqSeq a b = .error .notNormalized := by
  rcases h with h | h
  · have n := (isNormalized_eq_false_iff hw a.val).mpr h
    simp [readSeqSeq, ha, hb, n]
  · have n := (isNormalized_eq_false_iff hw b.val).mpr h
    simp [readSeqSeq, ha, hb, n]

theorem readSeqInt_ok {w : Nat} (hw : 8 ≤ w) {a b : Operand w} (ha : ReadableSeq a) (hb : b.kind = .int) :
    readSeqInt a b = .ok (seqOf a.val, intOf b.val) := by
  have na := (isNormalized_iff hw a.val).mpr ha.2
  simp [readSeqInt, ha.1, hb, na]

theorem readSeqInt_typeError {w : Nat} {a b : Operand w} (h : a.kind = .int ∨ b.kind = .seq) :
    readSeqInt a b = .error .typeError := by
  rcases h with h | h <;> simp [readSeqInt, h]

theorem readSeqInt_notNormalized {w : Nat} (hw : 8 ≤ w) {a b : Operand w} (ha : a.kind = .seq) (hb : b.kind = .int)
    (h : 256 ≤ a.val.toNat) : readSeqInt a b = .error .notNormalized := by
  have n := (isNormalized_eq_false_iff hw a.val).mpr h
  simp [readSeqInt, ha, hb, n]

theorem readInt_ok {w : Nat} {a : Operand w} (ha : a.kind = .int) : readInt a = .ok (intOf a.val) := by
  simp [readInt, ha]

theorem readInt_typeError {w : Nat} {a : Operand w} (ha : a.kind = .seq) : readInt a = .error .typeError := by
  simp [readInt, ha]

/-- Everything a command on two sequence numbers can do. -/
theorem withSeqSeq_cases {w : Nat} (hw : 8 ≤ w) (a b : Operand w) (s : State w) (f : SeqNum → SeqNum → State w) :
    (ReadableSeq a ∧ ReadableSeq b ∧ withSeqSeq a b s f = f (seqOf a.val) (seqOf b.val)) ∨
    ((a.kind = .int ∨ b.kind = .int) ∧ withSeqSeq a b s f = raise .typeError s) ∨
    (a.kind = .seq ∧ b.kind = .seq ∧ (256 ≤ a.val.toNat ∨ 256 ≤ b.val.toNat) ∧
      withSeqSeq a b s f = raise .notNormalized s) := by
  by_cases hk : a.kind = .int ∨ b.kind = .int
  · exact .inr (.inl ⟨hk, by rw [withSeqSeq, readSeqSeq_typeError hk]⟩)
  · have ha : a.kind = .seq := (kind_ne_int_iff _).mp fun h => hk (.inl h)
    have hb : b.kind = .seq := (kind_ne_int_iff _).mp fun h => hk (.inr h)
    by_cases hn : 256 ≤ a.val.toNat ∨ 256 ≤ b.val.toNat
    · exact .inr (.inr ⟨ha, hb, hn, by rw [withSeqSeq, readSeqSeq_notNormalized hw ha hb hn]⟩)
    · have ra : ReadableSeq a := ⟨ha, by omega⟩
      have rb : ReadableSeq b := ⟨hb, by omega⟩
      exact .inl ⟨ra, rb, by rw [withSeqSeq, readSeqSeq_ok hw ra rb]⟩

/-- Everything a command on a sequence number and a count can do. -/
theorem withSeqInt_cases {w : Nat} (hw : 8 ≤ w) (a b : Operand w) (s : State w) (f : SeqNum → Int → State w) :
    (ReadableSeq a ∧ b.kind = .int ∧ withSeqInt a b s f = f (seqOf a.val) (intOf b.val)) ∨
    ((a.kind = .int ∨ b.kind = .seq) ∧ withSeqInt a b s f = raise .typeError s) ∨
    (a.kind = .seq ∧ b.kind = .int ∧ 256 ≤ a.val.toNat ∧ withSeqInt a b s f = raise .notNormalized s) := by
  by_cases hk : a.kind = .int ∨ b.kind = .seq
  · exact .inr (.inl ⟨hk, by rw [withSeqInt, readSeqInt_typeError hk]⟩)
  · have ha : a.kind = .seq := (kind_ne_int_iff _).mp fun h => hk (.inl h)
    have hb : b.kind = .int := (kind_ne_seq_iff _).mp fun h => hk (.inr h)
    by_cases hn : 256 ≤ a.val.toNat
    · exact .inr (.inr ⟨ha, hb, hn, by rw [withSeqInt, readSeqInt_notNormalized hw ha hb hn]⟩)
    · have ra : ReadableSeq a := ⟨ha, by omega⟩
      exact .inl ⟨ra, hb, by rw [withSeqInt, readSeqInt_ok hw ra hb]⟩

/-- Everything a command on an integer can do. -/
theorem withInt_cases {w : Nat} (a : Operand w) (s : State w) (f : Int → State w) :
    (a.kind = .int ∧ withInt a s f = f (intOf a.val)) ∨
    (a.kind = .seq ∧ withInt a s f = raise .typeError s) := by
  by_cases ha : a.kind = .int
  · exact .inl ⟨ha, by rw [withInt, readInt_ok ha]⟩
  · have hs := (kind_ne_int_iff _).mp ha
    exact .inr ⟨hs, by rw [withInt, readInt_typeError hs]⟩

/-- Everything a command on the held sequence can do. -/
theorem withRange_cases {w : Nat} (s : State w) (f : State w → State w) :
    (s.srLoaded = true ∧ withRange s f = f s) ∨
    (s.srLoaded = false ∧ withRange s f = raise .noRange s) := by
  cases h : s.srLoaded with
  | true => exact .inl ⟨rfl, by rw [withRange, if_pos h]⟩
  | false => exact .inr ⟨rfl, by rw [withRange, if_neg (by simp [h])]⟩

/-- Everything taking an element can do. -/
theorem takeElement_cases {w : Nat} (s : State w) :
    (s.srCur = s.srEnd ∧ takeElement s = respond .none 0 true s) ∨
    (s.srCur ≠ s.srEnd ∧
      takeElement s = respond .seq (seqBits s.srCur) false (setCur (stepForward s.srCur 1) s)) := by
  by_cases h : s.srCur = s.srEnd
  · exact .inl ⟨h, by rw [takeElement, if_pos h]⟩
  · exact .inr ⟨h, by rw [takeElement, if_neg h]⟩

end Sys2Proof.Machine
end

