-- ==== Sys2Proof/Laws/Exec.lean ====
section
/-! SUPPORT. What each command can do, once per command, and what any command can do: it answers a next state, by `raise`, by
`respond`, or by one of the three writes of the iterator registers. -/

namespace Sys2Proof.Machine

open Sys2Proof.Safety

/-- `exec` is the dispatcher at the default width. -/
theorem exec_eq_execAt (i : Instr) (s : State) : exec i s = execAt i s := by cases i <;> rfl

theorem execAt_norm {w : Nat} (a b : Operand w) (s : State w) :
    execAt (.norm a b) s = .next (withInt a s fun n => respond .seq (seqBits (modSeq n)) false s) := rfl

theorem execAt_dist {w : Nat} (a b : Operand w) (s : State w) :
    execAt (.dist a b) s = .next (withSeqSeq a b s fun x y => respond .int (distBits (distance x y)) false s) := rfl

theorem execAt_add {w : Nat} (a b : Operand w) (s : State w) :
    execAt (.add a b) s = .next (withSeqInt a b s fun x n => respond .seq (seqBits (stepForward x n)) false s) := rfl

theorem execAt_subn {w : Nat} (a b : Operand w) (s : State w) :
    execAt (.subn a b) s = .next (withSeqInt a b s fun x n => respond .seq (seqBits (stepBackward x n)) false s) := rfl

theorem execAt_lt {w : Nat} (a b : Operand w) (s : State w) :
    execAt (.lt a b) s = .next (withSeqSeq a b s fun x y => respond .bool (boolBits (seqLt x y)) false s) := rfl

theorem execAt_le {w : Nat} (a b : Operand w) (s : State w) :
    execAt (.le a b) s = .next (withSeqSeq a b s fun x y => respond .bool (boolBits (seqLe x y)) false s) := rfl

theorem execAt_gt {w : Nat} (a b : Operand w) (s : State w) :
    execAt (.gt a b) s = .next (withSeqSeq a b s fun x y => respond .bool (boolBits (seqGt x y)) false s) := rfl

theorem execAt_ge {w : Nat} (a b : Operand w) (s : State w) :
    execAt (.ge a b) s = .next (withSeqSeq a b s fun x y => respond .bool (boolBits (seqGe x y)) false s) := rfl

theorem execAt_eq {w : Nat} (a b : Operand w) (s : State w) :
    execAt (.eq a b) s = .next (withSeqSeq a b s fun x y => respond .bool (boolBits (seqEq x y)) false s) := rfl

theorem execAt_srstart {w : Nat} (a b : Operand w) (s : State w) :
    execAt (.srstart a b) s = .next (withSeqSeq a b s fun x y => respond .none 0 false (loadRange x y s)) := rfl

theorem execAt_srnext {w : Nat} (a b : Operand w) (s : State w) :
    execAt (.srnext a b) s = .next (withRange s takeElement) := rfl

theorem execAt_srrestart {w : Nat} (a b : Operand w) (s : State w) :
    execAt (.srrestart a b) s = .next (withRange s fun t => respond .none 0 false (setCur t.srStart t)) := rfl

theorem exec_norm (a b : Operand) (s : State) :
    exec (.norm a b) s = .next (withInt a s fun n => respond .seq (seqBits (modSeq n)) false s) := rfl

theorem exec_dist (a b : Operand) (s : State) :
    exec (.dist a b) s = .next (withSeqSeq a b s fun x y => respond .int (distBits (distance x y)) false s) := rfl

theorem exec_add (a b : Operand) (s : State) :
    exec (.add a b) s = .next (withSeqInt a b s fun x n => respond .seq (seqBits (stepForward x n)) false s) := rfl

theorem exec_subn (a b : Operand) (s : State) :
    exec (.subn a b) s = .next (withSeqInt a b s fun x n => respond .seq (seqBits (stepBackward x n)) false s) := rfl

theorem exec_lt (a b : Operand) (s : State) :
    exec (.lt a b) s = .next (withSeqSeq a b s fun x y => respond .bool (boolBits (seqLt x y)) false s) := rfl

theorem exec_le (a b : Operand) (s : State) :
    exec (.le a b) s = .next (withSeqSeq a b s fun x y => respond .bool (boolBits (seqLe x y)) false s) := rfl

theorem exec_gt (a b : Operand) (s : State) :
    exec (.gt a b) s = .next (withSeqSeq a b s fun x y => respond .bool (boolBits (seqGt x y)) false s) := rfl

theorem exec_ge (a b : Operand) (s : State) :
    exec (.ge a b) s = .next (withSeqSeq a b s fun x y => respond .bool (boolBits (seqGe x y)) false s) := rfl

theorem exec_eq (a b : Operand) (s : State) :
    exec (.eq a b) s = .next (withSeqSeq a b s fun x y => respond .bool (boolBits (seqEq x y)) false s) := rfl

theorem exec_srstart (a b : Operand) (s : State) :
    exec (.srstart a b) s = .next (withSeqSeq a b s fun x y => respond .none 0 false (loadRange x y s)) := rfl

theorem exec_srnext (a b : Operand) (s : State) :
    exec (.srnext a b) s = .next (withRange s takeElement) := rfl

theorem exec_srrestart (a b : Operand) (s : State) :
    exec (.srrestart a b) s = .next (withRange s fun t => respond .none 0 false (setCur t.srStart t)) := rfl

/-- The ways a command can end, with the state it leaves. -/
inductive Ending {w : Nat} (i : Instr w) (s : State w) : State w → Prop where
  /-- An error response (R93). -/
  | failed (e : CmdError) : Ending i s (raise e s)
  /-- A pure result, of a command that is none of the three `srange` commands (R5). -/
  | result (h : isSrange i = false) (k : ResultKind) (v : Word w) : Ending i s (respond k v false s)
  /-- `SRSTART` (R79). -/
  | started (x y : SeqNum) (h : isSrange i = true) : Ending i s (respond .none 0 false (loadRange x y s))
  /-- `SRNEXT` on a held, exhausted sequence (R80). -/
  | exhausted (h : isSrange i = true) (hl : s.srLoaded = true) (he : s.srCur = s.srEnd) :
      Ending i s (respond .none 0 true s)
  /-- `SRNEXT` on a held sequence with an element left (R80). -/
  | element (h : isSrange i = true) (hl : s.srLoaded = true) (he : s.srCur ≠ s.srEnd) :
      Ending i s (respond .seq (seqBits s.srCur) false (setCur (stepForward s.srCur 1) s))
  /-- `SRRESTART` on a held sequence (R81). -/
  | restarted (h : isSrange i = true) (hl : s.srLoaded = true) :
      Ending i s (respond .none 0 false (setCur s.srStart s))

theorem ending_withSeqSeq {w : Nat} (hw : 8 ≤ w) {i : Instr w} (hi : isSrange i = false) (a b : Operand w) (s : State w) (k : ResultKind)
    (v : SeqNum → SeqNum → Word w) : Ending i s (withSeqSeq a b s fun x y => respond k (v x y) false s) := by
  rcases withSeqSeq_cases hw a b s (fun x y => respond k (v x y) false s) with ⟨-, -, h⟩ | ⟨-, h⟩ | ⟨-, -, -, h⟩ <;> rw [h]
  · exact .result hi _ _
  · exact .failed _
  · exact .failed _

theorem ending_withSeqInt {w : Nat} (hw : 8 ≤ w) {i : Instr w} (hi : isSrange i = false) (a b : Operand w) (s : State w) (k : ResultKind)
    (v : SeqNum → Int → Word w) : Ending i s (withSeqInt a b s fun x n => respond k (v x n) false s) := by
  rcases withSeqInt_cases hw a b s (fun x n => respond k (v x n) false s) with ⟨-, -, h⟩ | ⟨-, h⟩ | ⟨-, -, -, h⟩ <;> rw [h]
  · exact .result hi _ _
  · exact .failed _
  · exact .failed _

theorem ending_withInt {w : Nat} {i : Instr w} (hi : isSrange i = false) (a : Operand w) (s : State w) (k : ResultKind)
    (v : Int → Word w) : Ending i s (withInt a s fun n => respond k (v n) false s) := by
  rcases withInt_cases a s (fun n => respond k (v n) false s) with ⟨-, h⟩ | ⟨-, h⟩ <;> rw [h]
  · exact .result hi _ _
  · exact .failed _

/-- Everything a command can do, on ports that hold a sequence number: it answers a next state, in one of the six ways of `Ending`. -/
theorem execAt_cases {w : Nat} (hw : 8 ≤ w) (i : Instr w) (s : State w) : ∃ t, execAt i s = .next t ∧ Ending i s t := by
  cases i with
  | norm a b => exact ⟨_, execAt_norm a b s, ending_withInt rfl a s .seq fun n => seqBits (modSeq n)⟩
  | dist a b => exact ⟨_, execAt_dist a b s, ending_withSeqSeq hw rfl a b s .int fun x y => distBits (distance x y)⟩
  | add a b => exact ⟨_, execAt_add a b s, ending_withSeqInt hw rfl a b s .seq fun x n => seqBits (stepForward x n)⟩
  | subn a b => exact ⟨_, execAt_subn a b s, ending_withSeqInt hw rfl a b s .seq fun x n => seqBits (stepBackward x n)⟩
  | lt a b => exact ⟨_, execAt_lt a b s, ending_withSeqSeq hw rfl a b s .bool fun x y => boolBits (seqLt x y)⟩
  | le a b => exact ⟨_, execAt_le a b s, ending_withSeqSeq hw rfl a b s .bool fun x y => boolBits (seqLe x y)⟩
  | gt a b => exact ⟨_, execAt_gt a b s, ending_withSeqSeq hw rfl a b s .bool fun x y => boolBits (seqGt x y)⟩
  | ge a b => exact ⟨_, execAt_ge a b s, ending_withSeqSeq hw rfl a b s .bool fun x y => boolBits (seqGe x y)⟩
  | eq a b => exact ⟨_, execAt_eq a b s, ending_withSeqSeq hw rfl a b s .bool fun x y => boolBits (seqEq x y)⟩
  | srstart a b =>
    refine ⟨_, execAt_srstart a b s, ?_⟩
    rcases withSeqSeq_cases hw a b s (fun x y => respond .none 0 false (loadRange x y s)) with
      ⟨-, -, h⟩ | ⟨-, h⟩ | ⟨-, -, -, h⟩ <;> rw [h]
    · exact .started _ _ rfl
    · exact .failed _
    · exact .failed _
  | srnext a b =>
    refine ⟨_, execAt_srnext a b s, ?_⟩
    rcases withRange_cases s takeElement with ⟨hl, h⟩ | ⟨-, h⟩ <;> rw [h]
    · rcases takeElement_cases s with ⟨he, h⟩ | ⟨he, h⟩ <;> rw [h]
      · exact .exhausted rfl hl he
      · exact .element rfl hl he
    · exact .failed _
  | srrestart a b =>
    refine ⟨_, execAt_srrestart a b s, ?_⟩
    rcases withRange_cases s (fun t => respond .none 0 false (setCur t.srStart t)) with ⟨hl, h⟩ | ⟨-, h⟩ <;> rw [h]
    · exact .restarted rfl hl
    · exact .failed _

/-- Everything a command can do at the default width. -/
theorem exec_cases (i : Instr) (s : State) : ∃ t, exec i s = .next t ∧ Ending i s t := by
  rw [exec_eq_execAt]
  exact execAt_cases eight_le_intW i s

/-- The state a command leaves, in the one way it ended. -/
theorem ending_of_execAt {w : Nat} (hw : 8 ≤ w) {i : Instr w} {s t : State w} (h : execAt i s = .next t) : Ending i s t := by
  obtain ⟨u, hu, he⟩ := execAt_cases hw i s
  rw [h] at hu
  cases hu
  exact he

/-- The state a command leaves at the default width, in the one way it ended. -/
theorem ending_of_exec {i : Instr} {s t : State} (h : exec i s = .next t) : Ending i s t := by
  obtain ⟨u, hu, he⟩ := exec_cases i s
  rw [h] at hu
  cases hu
  exact he

/-- No command touches the model's own fields. -/
theorem exec_own_fields {i : Instr} {s t : State} (h : exec i s = .next t) :
    t.inputs = s.inputs ∧ t.idleCount = s.idleCount := by
  cases ending_of_exec h <;> simp

end Sys2Proof.Machine
end

