-- ==== Sys2Proof/Laws/PerInstr.lean ====
section
/-! SUPPORT. The per-command family `TableRow`: the word of a well-formed command matches the command's own row of the opcode
table under its mask (R50). -/

namespace Sys2Proof.Laws.TableRow

open Sys2Proof.Safety

/-- A well-formed command's word, masked by its table row, is the row's match. -/
def Statement (i : Instr) : Prop := i.wellFormed = true → (encode i).cmd &&& tableMask i = tableMatch i

/-- The word of a command as a function of its kinds and its `op`. -/
def wordOf (ka kb : Kind) (op : BitVec 4) : BitVec 8 := 0#2 ++ bitOfKind kb ++ bitOfKind ka ++ op

theorem encode_cmd (i : Instr) : (encode i).cmd = wordOf i.opA.kind i.opB.kind (opOfInstr i) := rfl

theorem norm (a b : Operand) : Statement (.norm a b) := by
  intro h
  have ha : a.kind = .int := by simpa [Instr.wellFormed] using h
  rw [encode_cmd, Instr.opA, Instr.opB, ha]
  cases b.kind <;> (simp only [opOfInstr, tableMask, tableMatch]; decide)

theorem seqSeq_word (i : Instr) (a b : Operand) (ha : i.opA = a) (hb : i.opB = b)
    (h : a.kind = .seq ∧ b.kind = .seq) : (encode i).cmd = wordOf .seq .seq (opOfInstr i) := by
  rw [encode_cmd, ha, hb, h.1, h.2]

theorem seqInt_word (i : Instr) (a b : Operand) (ha : i.opA = a) (hb : i.opB = b)
    (h : a.kind = .seq ∧ b.kind = .int) : (encode i).cmd = wordOf .seq .int (opOfInstr i) := by
  rw [encode_cmd, ha, hb, h.1, h.2]

theorem dist (a b : Operand) : Statement (.dist a b) := fun h => by
  rw [seqSeq_word (.dist a b) a b rfl rfl (of_decide_eq_true h)]; simp only [opOfInstr, tableMask, tableMatch]; decide

theorem add (a b : Operand) : Statement (.add a b) := fun h => by
  rw [seqInt_word (.add a b) a b rfl rfl (of_decide_eq_true h)]; simp only [opOfInstr, tableMask, tableMatch]; decide

theorem subn (a b : Operand) : Statement (.subn a b) := fun h => by
  rw [seqInt_word (.subn a b) a b rfl rfl (of_decide_eq_true h)]; simp only [opOfInstr, tableMask, tableMatch]; decide

theorem lt (a b : Operand) : Statement (.lt a b) := fun h => by
  rw [seqSeq_word (.lt a b) a b rfl rfl (of_decide_eq_true h)]; simp only [opOfInstr, tableMask, tableMatch]; decide

theorem le (a b : Operand) : Statement (.le a b) := fun h => by
  rw [seqSeq_word (.le a b) a b rfl rfl (of_decide_eq_true h)]; simp only [opOfInstr, tableMask, tableMatch]; decide

theorem gt (a b : Operand) : Statement (.gt a b) := fun h => by
  rw [seqSeq_word (.gt a b) a b rfl rfl (of_decide_eq_true h)]; simp only [opOfInstr, tableMask, tableMatch]; decide

theorem ge (a b : Operand) : Statement (.ge a b) := fun h => by
  rw [seqSeq_word (.ge a b) a b rfl rfl (of_decide_eq_true h)]; simp only [opOfInstr, tableMask, tableMatch]; decide

theorem eq (a b : Operand) : Statement (.eq a b) := fun h => by
  rw [seqSeq_word (.eq a b) a b rfl rfl (of_decide_eq_true h)]; simp only [opOfInstr, tableMask, tableMatch]; decide

theorem srstart (a b : Operand) : Statement (.srstart a b) := fun h => by
  rw [seqSeq_word (.srstart a b) a b rfl rfl (of_decide_eq_true h)]; simp only [opOfInstr, tableMask, tableMatch]; decide

theorem srnext (a b : Operand) : Statement (.srnext a b) := fun _ => by
  rw [encode_cmd, Instr.opA, Instr.opB]
  cases a.kind <;> cases b.kind <;> (simp only [opOfInstr, tableMask, tableMatch]; decide)

theorem srrestart (a b : Operand) : Statement (.srrestart a b) := fun _ => by
  rw [encode_cmd, Instr.opA, Instr.opB]
  cases a.kind <;> cases b.kind <;> (simp only [opOfInstr, tableMask, tableMatch]; decide)

end Sys2Proof.Laws.TableRow
end

