-- ==== Sys2Proof/Laws/Step.lean ====
section
/-! SUPPORT. Everything a step can do: reset, an accepted command that runs or is rejected, or an idle edge. -/

namespace Sys2Proof.Machine

/-- Everything an accepted command can do, whatever runs a decoded one (R94). -/
theorem acceptWith_cases {w : Nat} (run : Instr w → State w → Host.Outcome (State w) Fault Refusal) (c : Command w)
    (s : State w) :
    (∃ i, decode c = .ok i ∧ acceptWith run c s = run i s) ∨
    (∃ e, decode c = .error e ∧ acceptWith run c s = .next (raise e s)) := by
  cases h : decode c with
  | ok i => exact .inl ⟨i, rfl, by rw [acceptWith, h]⟩
  | error e => exact .inr ⟨e, rfl, by rw [acceptWith, h]⟩

/-- Everything an accepted command can do (R94). -/
theorem acceptCommand_cases (c : Command) (s : State) :
    (∃ i, decode c = .ok i ∧ acceptCommand c s = exec i s) ∨
    (∃ e, decode c = .error e ∧ acceptCommand c s = .next (raise e s)) :=
  acceptWith_cases exec c s

/-- Everything an edge can do, whatever runs a decoded command. -/
theorem clockEdgeWith_cases {w : Nat} (run : Instr w → State w → Host.Outcome (State w) Fault Refusal) (s : State w) :
    ((currentEdge s).rst = true ∧ clockEdgeWith run s = .next (resetEdge (dropInput s))) ∨
    ((currentEdge s).rst = false ∧ (currentEdge s).reqValid = true ∧
      clockEdgeWith run s = acceptWith run (currentEdge s).command (dropInput s)) ∨
    ((currentEdge s).rst = false ∧ (currentEdge s).reqValid = false ∧
      clockEdgeWith run s = .next (idleEdge (dropInput s))) := by
  cases hr : (currentEdge s).rst with
  | true => exact .inl ⟨rfl, by rw [clockEdgeWith, edgeWith, if_pos hr]⟩
  | false =>
    cases hv : (currentEdge s).reqValid with
    | true => exact .inr (.inl ⟨rfl, rfl, by rw [clockEdgeWith, edgeWith, if_neg (by simp [hr]), if_pos hv]⟩)
    | false =>
      exact .inr (.inr ⟨rfl, rfl, by rw [clockEdgeWith, edgeWith, if_neg (by simp [hr]), if_neg (by simp [hv])]⟩)

/-- Everything a step can do. -/
theorem step_cases (s : State) :
    ((currentEdge s).rst = true ∧ step s = .next (resetEdge (dropInput s))) ∨
    ((currentEdge s).rst = false ∧ (currentEdge s).reqValid = true ∧
      step s = acceptCommand (currentEdge s).command (dropInput s)) ∨
    ((currentEdge s).rst = false ∧ (currentEdge s).reqValid = false ∧ step s = .next (idleEdge (dropInput s))) :=
  clockEdgeWith_cases exec s

/-- Everything a step can do on ports of every width. -/
theorem stepAt_cases {w : Nat} (s : State w) :
    ((currentEdge s).rst = true ∧ stepAt s = .next (resetEdge (dropInput s))) ∨
    ((currentEdge s).rst = false ∧ (currentEdge s).reqValid = true ∧
      stepAt s = acceptAt (currentEdge s).command (dropInput s)) ∨
    ((currentEdge s).rst = false ∧ (currentEdge s).reqValid = false ∧ stepAt s = .next (idleEdge (dropInput s))) :=
  clockEdgeWith_cases execAt s

theorem currentEdge_cons {w : Nat} (s : State w) (e : Edge w) (es : List (Edge w)) (h : s.inputs = e :: es) : currentEdge s = e := by
  rw [currentEdge, h]

theorem currentEdge_nil {w : Nat} (s : State w) (h : s.inputs = []) : currentEdge s = quietEdge := by
  rw [currentEdge, h]

@[simp] theorem currentEdge_pushInput {w : Nat} (e : Edge w) (s : State w) : currentEdge (pushInput e s) = e := rfl

@[simp] theorem dropInput_pushInput {w : Nat} (e : Edge w) (s : State w) : dropInput (pushInput e s) = s := rfl

theorem currentEdge_of_inputs {w : Nat} {s : State w} {e : Edge w} {es : List (Edge w)} (h : s.inputs = e :: es) :
    currentEdge s = e ∧ dropInput s = { s with inputs := es } := by
  rw [currentEdge, dropInput, h]
  exact ⟨rfl, rfl⟩

/-- A command always answers a next state. -/
theorem acceptCommand_next (c : Command) (s : State) : ∃ t, acceptCommand c s = .next t := by
  rcases acceptCommand_cases c s with ⟨i, -, h⟩ | ⟨e, -, h⟩
  · obtain ⟨t, ht, -⟩ := exec_cases i s
    exact ⟨t, by rw [h, ht]⟩
  · exact ⟨_, h⟩

theorem runs_zero (s t : State) : Sys2Proof.Safety.Runs 0 s t ↔ s = t :=
  ⟨fun h => Host.Outcome.next.inj h, fun h => congrArg Host.Outcome.next h⟩

/-- A run of any machine is a step and then the rest of the run. -/
theorem run_succ_iff (M : Host.Core) (n : Nat) (s t : M.State) :
    M.run (n + 1) s = .next t ↔ ∃ u, M.step s = .next u ∧ M.run n u = .next t := by
  rw [Host.Core.run.eq_2]
  cases h : M.step s with
  | next u => simp
  | fault r => simp
  | refused r => simp

/-- A run is a step and then the rest of the run. -/
theorem runs_succ (n : Nat) (s t : State) :
    Sys2Proof.Safety.Runs (n + 1) s t ↔ ∃ u, step s = .next u ∧ Sys2Proof.Safety.Runs n u t :=
  run_succ_iff Sys2Proof.core n s t

/-- A word placed at the next edge is what the next step accepts. -/
theorem step_withFetchWord (s : State) (nbits w : Nat) :
    step (s.withFetchWord nbits w) = acceptCommand (commandOfNumber nbits w) s := rfl

end Sys2Proof.Machine
end

