-- ==== Sys2Proof/Tests/Slice0.lean ====
section
/-! SUPPORT. The model's own tests: ill-formed terms the checks refuse, words written out bit by bit from R38, the spec's own
vectors (95 and the corner cases of the rules), and a witness for the hypotheses of every statement. -/

namespace Sys2Proof.Tests

open Sys2Proof.Machine Sys2Proof.Safety

/-- The state a step leaves, none where it stops. -/
def nextOf : Host.Outcome State Fault Refusal → Option State
  | .next t => some t
  | .fault _ => none
  | .refused _ => none

/-- The result a step of a block of another width leaves. -/
def nextAt {w : Nat} : Host.Outcome (State w) Fault Refusal → Option (Word w)
  | .next t => some t.rsp.val
  | .fault _ => none
  | .refused _ => none

/-- A state that holds a sequence, no error so far, and the response of its `SRSTART` on the port. -/
def held (start stop cur : SeqNum) : State :=
  { State.reset with srStart := start, srEnd := stop, srCur := cur, srLoaded := true, rsp := ⟨true, 0, 0, 0, false⟩ }

/-- One edge at which the client presents a command. -/
def present1 (cmd : BitVec 8) (a b : Word) (s : State) : Option State :=
  nextOf (step (pushInput { rst := false, reqValid := true, command := ⟨cmd, a, b⟩ } s))

/-- The four fields of a response as 95 writes them. -/
def answer (o : Option State) : Option (BitVec 3 × BitVec 2 × Word × Bool) :=
  o.map fun t => (t.rsp.err, t.rsp.kind, t.rsp.val, t.rsp.done)

/-- The state columns of 95: START, END, CUR, LOADED, STICKY. -/
def columns (o : Option State) : Option (SeqNum × SeqNum × SeqNum × Bool × Bool) :=
  o.map fun t => (t.srStart, t.srEnd, t.srCur, t.srLoaded, t.stickyErr)

/-! ## Well-formedness: one ill-formed term for each check of R42 -/

theorem test_norm_of_seq_is_ill_formed : (.norm ⟨.seq, 5⟩ ⟨.seq, 5⟩ : Instr).wellFormed = false := by decide
theorem test_dist_of_int_is_ill_formed :
    (.dist ⟨.int, 5⟩ ⟨.seq, 5⟩ : Instr).wellFormed = false ∧ (.dist ⟨.seq, 5⟩ ⟨.int, 5⟩ : Instr).wellFormed = false := by decide
theorem test_add_kinds_are_checked :
    (.add ⟨.int, 5⟩ ⟨.int, 5⟩ : Instr).wellFormed = false ∧ (.add ⟨.seq, 5⟩ ⟨.seq, 5⟩ : Instr).wellFormed = false := by decide
theorem test_subn_kinds_are_checked :
    (.subn ⟨.int, 5⟩ ⟨.int, 5⟩ : Instr).wellFormed = false ∧ (.subn ⟨.seq, 5⟩ ⟨.seq, 5⟩ : Instr).wellFormed = false := by decide
theorem test_predicate_kinds_are_checked :
    (.lt ⟨.int, 0⟩ ⟨.seq, 0⟩ : Instr).wellFormed = false ∧ (.lt ⟨.seq, 0⟩ ⟨.int, 0⟩ : Instr).wellFormed = false ∧
    (.le ⟨.int, 0⟩ ⟨.seq, 0⟩ : Instr).wellFormed = false ∧ (.le ⟨.seq, 0⟩ ⟨.int, 0⟩ : Instr).wellFormed = false ∧
    (.gt ⟨.int, 0⟩ ⟨.seq, 0⟩ : Instr).wellFormed = false ∧ (.gt ⟨.seq, 0⟩ ⟨.int, 0⟩ : Instr).wellFormed = false ∧
    (.ge ⟨.int, 0⟩ ⟨.seq, 0⟩ : Instr).wellFormed = false ∧ (.ge ⟨.seq, 0⟩ ⟨.int, 0⟩ : Instr).wellFormed = false ∧
    (.eq ⟨.int, 0⟩ ⟨.seq, 0⟩ : Instr).wellFormed = false ∧ (.eq ⟨.seq, 0⟩ ⟨.int, 0⟩ : Instr).wellFormed = false := by decide
theorem test_srstart_kinds_are_checked :
    (.srstart ⟨.int, 1⟩ ⟨.seq, 3⟩ : Instr).wellFormed = false ∧ (.srstart ⟨.seq, 1⟩ ⟨.int, 3⟩ : Instr).wellFormed = false := by decide

/-! ## Decoding: words written out field by field, `rsv b_kind a_kind op` (R38, R41) -/

theorem test_decode_norm : decode (⟨0b00010000, 0xFFFFFFFF, 0⟩ : Command) = .ok (.norm ⟨.int, 0xFFFFFFFF⟩ ⟨.seq, 0⟩) := by decide
theorem test_decode_norm_other_bkind : decode (⟨0b00110000, 0x105, 7⟩ : Command) = .ok (.norm ⟨.int, 0x105⟩ ⟨.int, 7⟩) := by decide
theorem test_decode_dist : decode (⟨0b00000001, 0, 255⟩ : Command) = .ok (.dist ⟨.seq, 0⟩ ⟨.seq, 255⟩) := by decide
theorem test_decode_add : decode (⟨0b00100010, 255, 1⟩ : Command) = .ok (.add ⟨.seq, 255⟩ ⟨.int, 1⟩) := by decide
theorem test_decode_subn : decode (⟨0b00100011, 0, 1⟩ : Command) = .ok (.subn ⟨.seq, 0⟩ ⟨.int, 1⟩) := by decide
theorem test_decode_lt : decode (⟨0b00000100, 1, 2⟩ : Command) = .ok (.lt ⟨.seq, 1⟩ ⟨.seq, 2⟩) := by decide
theorem test_decode_le : decode (⟨0b00000101, 1, 2⟩ : Command) = .ok (.le ⟨.seq, 1⟩ ⟨.seq, 2⟩) := by decide
theorem test_decode_gt : decode (⟨0b00000110, 1, 2⟩ : Command) = .ok (.gt ⟨.seq, 1⟩ ⟨.seq, 2⟩) := by decide
theorem test_decode_ge : decode (⟨0b00000111, 1, 2⟩ : Command) = .ok (.ge ⟨.seq, 1⟩ ⟨.seq, 2⟩) := by decide
theorem test_decode_eq : decode (⟨0b00001000, 3, 2⟩ : Command) = .ok (.eq ⟨.seq, 3⟩ ⟨.seq, 2⟩) := by decide
theorem test_decode_srstart : decode (⟨0b00001001, 2, 5⟩ : Command) = .ok (.srstart ⟨.seq, 2⟩ ⟨.seq, 5⟩) := by decide
theorem test_decode_srnext : decode (⟨0b00111010, 9, 8⟩ : Command) = .ok (.srnext ⟨.int, 9⟩ ⟨.int, 8⟩) := by decide
theorem test_decode_srrestart : decode (⟨0b00011011, 9, 8⟩ : Command) = .ok (.srrestart ⟨.int, 9⟩ ⟨.seq, 8⟩) := by decide
theorem test_decode_reserved_op : decode (⟨0b00001100, 0, 0⟩ : Command) = .error .illegalCmd := by decide
theorem test_decode_reserved_bits : decode (⟨0b01001001, 1, 3⟩ : Command) = .error .illegalCmd := by decide
theorem test_decode_kind_mismatch : decode (⟨0b00111000, 5, 5⟩ : Command) = .error .typeError := by decide
theorem test_encode_add : encode (.add ⟨.seq, 255⟩ ⟨.int, 1⟩) = (⟨0x22, 255, 1⟩ : Command) := by decide
theorem test_table_word : decodeTableWord 8 0x23 = some (.subn ⟨.seq, 0⟩ ⟨.int, 0⟩) := by decide
theorem test_table_word_operands : decodeTableWord 72 0x000000010000000522 = some (.add ⟨.seq, 5⟩ ⟨.int, 1⟩) := by decide
theorem test_placed_word_runs_first : answer (nextOf (step (State.reset.withFetchWord 8 0x0A))) = some (4, 0, 0, false) := by
  decide

/-! ## Vectors of 95, section 2.1 and 2.2, from the reset state -/

theorem test_norm_minus_129 : answer (present1 0x10 0xFFFFFF7F 0 State.reset) = some (0, 1, 127, false) := by decide
theorem test_norm_ignores_b : answer (present1 0x30 0x105 0xFFFFFFFF State.reset) = some (0, 1, 5, false) := by decide
theorem test_dist_127_128 : answer (present1 0x01 127 128 State.reset) = some (0, 2, 255, false) := by decide
theorem test_dist_128_127 : answer (present1 0x01 128 127 State.reset) = some (0, 2, 0xFFFFFF01, false) := by decide
theorem test_add_wraps : answer (present1 0x22 200 100 State.reset) = some (0, 1, 44, false) := by decide
theorem test_add_minus_1 : answer (present1 0x22 5 0xFFFFFFFF State.reset) = some (0, 1, 4, false) := by decide
theorem test_subn_5_10 : answer (present1 0x23 5 10 State.reset) = some (0, 1, 251, false) := by decide
theorem test_subn_3_259 : answer (present1 0x23 3 259 State.reset) = some (0, 1, 0, false) := by decide
theorem test_lt_128_127 : answer (present1 0x04 128 127 State.reset) = some (0, 3, 1, false) := by decide
theorem test_lt_0_128 : answer (present1 0x04 0 128 State.reset) = some (0, 3, 0, false) := by decide
theorem test_le_5_5 : answer (present1 0x05 5 5 State.reset) = some (0, 3, 1, false) := by decide
theorem test_le_127_128 : answer (present1 0x05 127 128 State.reset) = some (0, 3, 0, false) := by decide
theorem test_gt_127_128 : answer (present1 0x06 127 128 State.reset) = some (0, 3, 1, false) := by decide
theorem test_gt_5_5 : answer (present1 0x06 5 5 State.reset) = some (0, 3, 0, false) := by decide
theorem test_ge_5_5 : answer (present1 0x07 5 5 State.reset) = some (0, 3, 1, false) := by decide
theorem test_ge_128_0 : answer (present1 0x07 128 0 State.reset) = some (0, 3, 0, false) := by decide
theorem test_eq_255_255 : answer (present1 0x08 255 255 State.reset) = some (0, 3, 1, false) := by decide
theorem test_eq_0_255 : answer (present1 0x08 0 255 State.reset) = some (0, 3, 0, false) := by decide

/-- R55 at the narrowest port of R4: -255 in 9 bits is 0x101. -/
theorem test_dist_at_9_bits :
    nextAt (stepAt (pushInput ⟨false, true, ⟨0x01, 128, 127⟩⟩ (State.resetAt 9))) = some (0x101 : BitVec 9) := by decide

/-! ## Vectors of 95, section 2.3 -/

theorem test_srstart_254_1 : columns (present1 0x09 254 1 State.reset) = some (254, 1, 254, true, false) := by decide
theorem test_srnext_wraps_at_255 :
    answer (present1 0x0A 0 0 (held 254 1 255)) = some (0, 1, 255, false) ∧
    columns (present1 0x0A 0 0 (held 254 1 255)) = some (254, 1, 0, true, false) := by decide
theorem test_srnext_done_repeats :
    answer (present1 0x0A 0 0 (held 7 7 7)) = some (0, 0, 0, true) ∧
    columns (present1 0x0A 0 0 (held 7 7 7)) = some (7, 7, 7, true, false) := by decide
theorem test_srrestart_in_the_middle : columns (present1 0x0B 0 0 (held 10 13 12)) = some (10, 13, 10, true, false) := by decide
theorem test_failed_srstart_keeps_the_range :
    answer (present1 0x29 1 3 (held 100 101 101)) = some (2, 0, 0, false) ∧
    columns (present1 0x29 1 3 (held 100 101 101)) = some (100, 101, 101, true, true) := by decide

/-! ## Vectors of 95, section 2.4, and program P5's reset edge -/

theorem test_type_error_before_not_normalized : answer (present1 0x18 0 0x100 State.reset) = some (2, 0, 0, false) := by decide
theorem test_not_normalized_b : answer (present1 0x08 0 0x100 State.reset) = some (3, 0, 0, false) := by decide
theorem test_srrestart_no_range : answer (present1 0x3B 0 0 State.reset) = some (4, 0, 0, false) := by decide
theorem test_illegal_before_kinds : answer (present1 0x4C 0 0 State.reset) = some (1, 0, 0, false) := by decide
theorem test_reset_clears_sticky_and_range :
    columns (nextOf (step { held 1 3 2 with stickyErr := true, inputs := [⟨true, true, ⟨0x08, 0, 0⟩⟩] })) =
      some (0, 0, 0, false, false) := by decide

/-! ## The assembler: the spec's own lines (R51, R52, 95 section 2.1) -/

theorem test_asm_type_error_line : assembleText "EQ s5, #5" = some ⟨0x28, 5, 5⟩ := by decide
theorem test_asm_inc : assembleText "INC s255" = some ⟨0x22, 255, 1⟩ := by decide
theorem test_asm_dec : assembleText "DEC s0" = some ⟨0x23, 0, 1⟩ := by decide
theorem test_asm_sub_of_seq : assembleText "SUB s7, s3" = some ⟨0x01, 7, 3⟩ := by decide
theorem test_asm_sub_of_count : assembleText "SUB s7, #3" = some ⟨0x23, 7, 3⟩ := by decide
theorem test_asm_hex_and_comment : assembleText "ADD s10, #0xFFFFFF00 ; back" = some ⟨0x22, 10, 0xFFFFFF00⟩ := by decide
theorem test_asm_omitted_operands : assembleText "SRNEXT" = some ⟨0x0A, 0, 0⟩ := by decide
theorem test_asm_number_too_wide : assembleText "NORM #0x100000000" = none := by decide

/-! ## Witnesses: the hypotheses of every statement can be met, at the ends of their ranges -/

/-- Operands of each success, kind and normalisation clause (NORM to EQ, SRSTART). -/
theorem witness_operands :
    SeqOperand (⟨.seq, 0⟩ : Operand) ∧ SeqOperand (⟨.seq, 255⟩ : Operand) ∧ ¬SeqOperand (⟨.seq, 256⟩ : Operand) ∧ (⟨.int, 0x80000000⟩ : Operand).kind = .int ∧
    256 ≤ (⟨.seq, 256⟩ : Operand).val.toNat := by decide

/-- An edge with a decoded, well-formed command (StepRunsTheDecodedCommand, PortAcceptsExactlyValidRequests). -/
theorem witness_accepted_edge :
    ∃ (s : State) (e : Edge) (es : List Edge) (i : Instr), s.inputs = e :: es ∧ e.rst = false ∧ e.reqValid = true ∧
      decode e.command = .ok i ∧ i.wellFormed = true :=
  ⟨{ held 2 5 2 with inputs := [⟨false, true, ⟨0x22, 255, 1⟩⟩, quietEdge] }, ⟨false, true, ⟨0x22, 255, 1⟩⟩, [quietEdge],
    .add ⟨.seq, 255⟩ ⟨.int, 1⟩, by decide⟩

/-- Words the decoder rejects (ReservedWordsAreIllegal), with each clause of the reserved forms. -/
theorem witness_rejected_edges :
    decode (⟨false, true, ⟨0x4C, 0, 0⟩⟩ : Edge).command = .error .illegalCmd ∧
    decode (⟨false, true, ⟨0x28, 5, 5⟩⟩ : Edge).command = .error .typeError ∧
    12 ≤ (0x0C : BitVec 8).toNat % 16 ∧ (0x40 : BitVec 8).toNat / 64 ≠ 0 := by decide

/-- A reset edge and an idle edge before a command (ResetEdgeWinsOverACommand, PortAcceptsExactlyValidRequests,
IdleEdgesChangeNoResult). -/
theorem witness_edges :
    ({ held 1 3 2 with inputs := [⟨true, true, ⟨0x08, 0, 0⟩⟩] } : State).inputs = [⟨true, true, ⟨0x08, 0, 0⟩⟩] ∧
    (quietEdge : Edge).rst = false ∧ (quietEdge : Edge).reqValid = false ∧ State.reset.inputs = [] ∧
    ({ held 1 3 2 with inputs := [quietEdge, ⟨false, true, ⟨0x0A, 0, 0⟩⟩] } : State).inputs =
      [quietEdge, ⟨false, true, ⟨0x0A, 0, 0⟩⟩] := by decide

/-- States of the iterator clauses: held with an element left, held and exhausted, nothing held. -/
theorem witness_iterator_states :
    (held 254 1 255).srLoaded = true ∧ (held 254 1 255).srCur ≠ (held 254 1 255).srEnd ∧
    (held 7 7 7).srLoaded = true ∧ (held 7 7 7).srCur = (held 7 7 7).srEnd ∧ State.reset.srLoaded = false := by decide

/-- A command that ends in error, as a command and as an accepted triple (ErrorsArePrecise, ErrorsAreRaisedOnlyByTheirCommands,
IteratorIsWrittenOnlyBySrangeCommands). -/
theorem witness_failing_command :
    ∃ t : State, acceptCommand ⟨0x29, 1, 3⟩ (held 100 101 101) = .next t ∧ t.rsp.err ≠ 0 ∧ t.rsp.err = 2 :=
  ⟨raise .typeError (held 100 101 101), rfl, by decide, by decide⟩

theorem witness_failing_exec :
    ∃ t : State, exec (.srnext ⟨.seq, 0⟩ ⟨.seq, 0⟩) State.reset = .next t ∧ t.rsp.err ≠ 0 :=
  ⟨raise .noRange State.reset, rfl, by decide⟩

/-- `SRSTART` that succeeds, so that `SR_LOADED` rises (CursorStaysOnTheForwardPath, LoadedFlagGuardsTheIterator). -/
theorem witness_srstart_loads :
    ∃ t : State, step { State.reset with inputs := [⟨false, true, ⟨0x09, 254, 1⟩⟩] } = .next t ∧ t.rsp.err = 0 ∧
      t.srLoaded = true ∧ OnForwardPath t :=
  ⟨{ State.reset with
      srStart := 254, srEnd := 1, srCur := 254, srLoaded := true, rsp := ⟨true, 0, 0, 0, false⟩ }, rfl, by decide⟩

theorem witness_reset_unloads :
    ∃ t : State, step { held 1 3 2 with inputs := [⟨true, false, ⟨0, 0, 0⟩⟩] } = .next t ∧
      (held 1 3 2).srLoaded = true ∧ t.srLoaded = false :=
  ⟨State.reset, rfl, by decide⟩

/-- The idempotence clauses: a command other than `SRNEXT`, and an `SRNEXT` word with ignored bits set. -/
theorem witness_idempotence :
    (0x22 : BitVec 8) &&& 0xCF ≠ 0x0A ∧ (0x3A : BitVec 8) &&& 0xCF = 0x0A ∧ (0x30 : BitVec 8) &&& 0xDF = 0x10 ∧
    (0x2B : BitVec 8) &&& 0xCF = 0x0B := by decide

/-- The error and no-error clauses of the priority order. -/
theorem witness_priority :
    firstError State.reset ⟨0x18, 0, 0x100⟩ = 2 ∧ firstError State.reset ⟨0x0A, 0, 0⟩ = 4 ∧
    firstError (held 2 5 2) ⟨0x0A, 0, 0⟩ = 0 := by decide

/-- Two port values with the same low 8 bits (IntOperandsCountOnlyModulo256). -/
theorem witness_congruent_counts : (0xFFFFFFFF : Word).toNat % 256 = (255 : Word).toNat % 256 := by decide

/-- Iterator registers that agree between two different states (ResponsesDependOnlyOnWhatTheCommandReads). -/
theorem witness_equal_iterators :
    held 1 3 2 ≠ { held 1 3 2 with stickyErr := true } ∧ (held 1 3 2).srCur = ({ held 1 3 2 with stickyErr := true } : State).srCur ∧
    isSrange (nextCommand : Instr) = true ∧ isSrange (.add ⟨.seq, 0⟩ ⟨.int, 0⟩ : Instr) = false := by decide

/-- The inputs of the enumeration statements. -/
theorem witness_enumeration_inputs :
    ∃ s : State, s.inputs =
      present (.srstart (seqOperand 254) (seqOperand 1)) :: (List.replicate (2 + 1) (present nextCommand) ++ [quietEdge]) :=
  ⟨{ State.reset with
      inputs := present (.srstart (seqOperand 254) (seqOperand 1)) ::
        (List.replicate (2 + 1) (present nextCommand) ++ [quietEdge]) }, rfl⟩

theorem witness_restart_inputs :
    ∃ s : State, s.srLoaded = true ∧
      s.inputs = present restartCommand :: (List.replicate (0 + 1) (present nextCommand) ++ []) :=
  ⟨{ held 10 13 12 with inputs := present restartCommand :: (List.replicate (0 + 1) (present nextCommand) ++ []) },
    rfl, rfl⟩

/-- The last element and the first done of `srange(254, 1)` lie on the two sides of its length, 3. -/
theorem witness_range_length : (1 + 256 - 254) % 256 = 3 ∧ 2 < (1 + 256 - 254) % 256 ∧ (1 + 256 - 254) % 256 ≤ 3 := by decide

/-- A run without a reset edge that keeps the sticky bit, and a safe run (StickyErrStaysUntilReset). -/
theorem witness_sticky_run :
    ∃ s t : State, 1 ≤ s.inputs.length ∧ Runs 1 s t ∧ (∀ e ∈ s.inputs.take 1, e.rst = false) ∧ s.stickyErr = true :=
  ⟨{ held 1 3 2 with stickyErr := true, inputs := [⟨false, true, ⟨0x08, 0, 0⟩⟩] },
    { held 1 3 2 with stickyErr := true, rsp := ⟨true, 0, 3, 1, false⟩ }, by decide, rfl, by decide, rfl⟩

theorem witness_safe_run : ∃ s t : State, 1 ≤ s.inputs.length ∧ SafeRun 1 s t ∧ (∀ e ∈ s.inputs.take 1, e.rst = false) :=
  ⟨{ held 1 3 2 with inputs := [⟨false, true, ⟨0x08, 0, 0⟩⟩] },
    { held 1 3 2 with rsp := ⟨true, 0, 3, 1, false⟩ }, by decide, ⟨rfl, rfl⟩, by decide⟩

/-- A state that meets the invariants away from reset, and a step from it (EveryStepKeepsTheInvariants). -/
theorem witness_invariant_step :
    ∃ t : State, Inv (held 254 1 255) ∧ step (pushInput ⟨false, true, ⟨0x0A, 0, 0⟩⟩ (held 254 1 255)) = .next t ∧ Inv t :=
  ⟨{ held 254 1 0 with rsp := ⟨true, 0, 1, 255, false⟩ }, by decide, rfl, by decide⟩

/-- A line that assembles (AssemblerClearsIgnoredBits), with an ignored operand written. -/
theorem witness_assembled_line :
    assembleLine ⟨.norm, some (.int 5), some (.int 3)⟩ = some ⟨0x10, 5, 0⟩ ∧
    assembleLine ⟨.srnext, some (.int 5), none⟩ = some ⟨0x0A, 0, 0⟩ := by decide

/-- A core line whose numbers the port carries, at both ends of what it carries (AssemblerEncodesWhatIsWritten). -/
theorem witness_carried_line :
    opNumber .add = some 2 ∧ Carried 32 (some (.seq 0xFFFFFFFF)) ∧ Carried 32 (some (.int 0xFFFFFFFF)) ∧
    Carried 32 (some (.int (-0x80000000))) ∧ Carried 32 none :=
  ⟨rfl, by unfold Carried; decide, by unfold Carried; decide, by unfold Carried; decide, trivial⟩

/-- Blocks of different widths with the same registers, and the ends of the numbers both carry
(EveryPortWidthHoldsTheSameAnswers). -/
theorem witness_two_widths :
    SameRegisters (State.resetAt 9) State.reset ∧ (BitVec.ofInt 9 (-256)).toInt = -256 ∧ (BitVec.ofInt 9 255).toInt = 255 ∧
    (BitVec.ofInt 9 (-1)).toNat = 511 := by
  unfold SameRegisters
  decide

/-- A state of a 9-bit block that meets the invariants, and a step from it (EveryStepKeepsTheInvariants). -/
theorem witness_invariant_step_at_9_bits :
    ∃ t : State 9, Inv (State.resetAt 9) ∧ stepAt (pushInput ⟨false, true, ⟨0x09, 254, 1⟩⟩ (State.resetAt 9)) = .next t ∧
      t.srCur = 254 ∧ Inv t :=
  ⟨{ State.resetAt 9 with
      srStart := 254, srEnd := 1, srCur := 254, srLoaded := true, rsp := ⟨true, 0, 0, 0, false⟩ }, by decide, rfl, rfl, by decide⟩

/-- The pairs of R76: the shorter arc across 0 (distances 1 and 9), across 128 (255 and 156), and half-way (-128 and 128)
(SafeZoneOfThePredicates). -/
theorem witness_safe_zone_pairs :
    0 + 256 - 255 < 255 - 0 ∧ signedRep 0 - signedRep 255 = 1 ∧ 3 + 256 - 250 < 250 - 3 ∧ signedRep 3 - signedRep 250 = 9 ∧
    128 - 127 < 127 + 256 - 128 ∧ signedRep 127 - signedRep 128 = 255 ∧
    200 - 100 < 100 + 256 - 200 ∧ signedRep 100 - signedRep 200 = 156 ∧
    signedRep 128 - signedRep 0 = -128 ∧ signedRep 0 - signedRep 128 = 128 := by decide

/-- Pairs on each side of the case splits of R63, R64 and R75: distances 127, 128, -128, -129. -/
theorem witness_distance_cases :
    signedRep 127 - signedRep 0 = 127 ∧ signedRep 0 - signedRep 128 = 128 ∧ signedRep 128 - signedRep 0 = -128 ∧
    signedRep 128 - signedRep 1 = -129 ∧ signedRep 0 + 127 ≤ 127 ∧ ¬(signedRep 0 + 128 ≤ 127) := by decide

end Sys2Proof.Tests
end

section
/-! # The port width and the pure rules (00_scope.md, R4 and R5)

One comparison settles both obligations: two blocks, whatever their port widths, run the same command on operands that read
alike (`execAt_agree`), and what they leave agrees (`Agree`). R4 is the comparison across widths, R5 the comparison of two
states of one block. -/

namespace Sys2Proof.Scope

open Sys2Proof.Machine Sys2Proof.Safety

/-! ## Ports of different widths that hold the same integer -/

/-- Two operands, whatever their port widths, of one kind and with the same two's-complement value. -/
def SameReading {v w : Nat} (a : Operand v) (b : Operand w) : Prop := a.kind = b.kind ∧ a.val.toInt = b.val.toInt

theorem SameReading.refl {w : Nat} (a : Operand w) : SameReading a a := ⟨rfl, rfl⟩

/-- From 9 bits up the two's-complement value alone says whether a port holds a sequence number. -/
theorem toNat_lt_256_iff {w : Nat} (hw : 9 ≤ w) (x : BitVec w) : x.toNat < 256 ↔ 0 ≤ x.toInt ∧ x.toInt < 256 := by
  have hpow : 2 ^ 9 ≤ 2 ^ w := Nat.pow_le_pow_right (by decide) hw
  have hx := x.isLt
  rw [BitVec.toInt_eq_toNat_cond]
  split <;> omega

theorem isNormalized_congr {v w : Nat} (hv : 9 ≤ v) (hw : 9 ≤ w) {x : BitVec v} {y : BitVec w} (h : x.toInt = y.toInt) :
    isNormalized x = isNormalized y := by
  rw [Bool.eq_iff_iff, isNormalized_iff (by omega), isNormalized_iff (by omega), toNat_lt_256_iff hv, toNat_lt_256_iff hw, h]

theorem seqOf_congr {v w : Nat} (hv : 9 ≤ v) (hw : 9 ≤ w) {x : BitVec v} {y : BitVec w} (h : x.toInt = y.toInt) :
    seqOf x = seqOf y := by
  rw [← modSeq_intOf (by omega) x, ← modSeq_intOf (by omega) y, intOf, intOf, h]

section Reads

variable {v w : Nat} (hv : 9 ≤ v) (hw : 9 ≤ w) {a b : Operand v} {a' b' : Operand w}
  (ha : SameReading a a') (hb : SameReading b b')

include ha in
theorem readInt_congr : readInt a = readInt a' := by
  rw [readInt, readInt, intOf, intOf, ha.1, ha.2]

include hv hw ha hb

theorem readSeqInt_congr : readSeqInt a b = readSeqInt a' b' := by
  rw [readSeqInt, readSeqInt, intOf, intOf, ha.1, hb.1, hb.2, isNormalized_congr hv hw ha.2, seqOf_congr hv hw ha.2]

theorem readSeqSeq_congr : readSeqSeq a b = readSeqSeq a' b' := by
  rw [readSeqSeq, readSeqSeq, ha.1, hb.1, isNormalized_congr hv hw ha.2, isNormalized_congr hv hw hb.2,
    seqOf_congr hv hw ha.2, seqOf_congr hv hw hb.2]

end Reads

/-- R65: from 9 bits up the result port holds every distance. -/
theorem distBits_toInt {w : Nat} (hw : 9 ≤ w) (x y : SeqNum) : (distBits (distance x y) : BitVec w).toInt = distance x y := by
  obtain ⟨hlo, hhi⟩ := distance_bounds x y
  rw [distBits, BitVec.toInt_signExtend_of_le hw, BitVec.toInt_ofInt_eq_self (by decide) (by omega) (by omega)]

/-- From 9 bits up a port holds every integer in [-256, 256). -/
theorem toInt_ofInt_of_nine_le {w : Nat} (hw : 9 ≤ w) {n : Int} (hlo : -256 ≤ n) (hhi : n < 256) :
    (BitVec.ofInt w n).toInt = n := by
  have hpow : (2 : Int) ^ 8 ≤ 2 ^ (w - 1) := pow_le_pow_right₀ (by decide) (by omega)
  exact BitVec.toInt_ofInt_eq_self (by omega) (by omega) (by omega)

theorem seqOperand_val {w : Nat} (x : SeqNum) : (seqOperand x : Operand w).val = seqBits x := by
  apply BitVec.eq_of_toNat_eq
  rw [seqOperand, seqBits, BitVec.toNat_ofNat, BitVec.toNat_setWidth]

theorem signedRep_toNat (x : SeqNum) : signedRep x.toNat = signed8 x := by
  rw [signedRep, BitVec.ofNat_toNat, BitVec.setWidth_eq, signed8_eq_toInt]

/-! ## What two blocks leave, compared -/

/-- The iterator registers of two blocks, whatever their port widths, hold the same values. -/
def SameIterator {v w : Nat} (s : State v) (u : State w) : Prop :=
  s.srStart = u.srStart ∧ s.srEnd = u.srEnd ∧ s.srCur = u.srCur ∧ s.srLoaded = u.srLoaded

theorem sameRegisters_iff {v w : Nat} (s : State v) (u : State w) :
    SameRegisters s u ↔ SameIterator s u ∧ s.stickyErr = u.stickyErr := by
  simp only [SameRegisters, SameIterator, and_assoc]

/-- At one width, responses that answer the same are the same. -/
theorem eq_of_sameAnswer {w : Nat} {r q : Response w} (h : SameAnswer r q) : r = q := by
  obtain ⟨hvalid, herr, hkind, hdone, hval⟩ := h
  have hbits : r.val = q.val := by
    split at hval
    · exact BitVec.eq_of_toInt_eq hval
    · exact BitVec.eq_of_toNat_eq hval
  cases r
  cases q
  simp_all

/-- Results that go onto ports of two widths as one value: an `INT` in two's complement, any other unsigned (R90). -/
def SameValue {v w : Nat} (k : ResultKind) (x : Word v) (y : Word w) : Prop :=
  if k = .int then x.toInt = y.toInt else x.toNat = y.toNat

/-- What a command on `s` and one on `u` leave agrees: the same answer, and equal registers where they were equal before. -/
structure Agree {v w : Nat} (s : State v) (u : State w) (t : State v) (r : State w) : Prop where
  answer : SameAnswer t.rsp r.rsp
  iterator : SameIterator s u → SameIterator t r
  sticky : s.stickyErr = u.stickyErr → t.stickyErr = r.stickyErr

section Agreement

variable {v w : Nat} {s : State v} {u : State w}

theorem agree_raise (e : CmdError) : Agree s u (raise e s) (raise e u) where
  answer := by simp [SameAnswer, kindCode]
  iterator := id
  sticky _ := rfl

/-- Responses of one value agree, on states that agree in the other registers. -/
theorem agree_respond {s' : State v} {u' : State w} {k : ResultKind} {x : Word v} {y : Word w} (d : Bool) (h : SameValue k x y)
    (hit : SameIterator s u → SameIterator s' u') (hst : s.stickyErr = u.stickyErr → s'.stickyErr = u'.stickyErr) :
    Agree s u (respond k x d s') (respond k y d u') where
  answer := by
    refine ⟨rfl, rfl, rfl, rfl, ?_⟩
    cases k <;> exact h
  iterator := hit
  sticky := hst

theorem sameValue_zero (k : ResultKind) : SameValue k (0 : Word v) (0 : Word w) := by
  cases k <;> simp [SameValue]

theorem sameValue_seqBits (hv : 9 ≤ v) (hw : 9 ≤ w) (x : SeqNum) : SameValue .seq (seqBits x : Word v) (seqBits x : Word w) := by
  change (seqBits x : Word v).toNat = (seqBits x : Word w).toNat
  rw [seqBits_toNat (by omega), seqBits_toNat (by omega)]

theorem sameValue_boolBits (hv : 9 ≤ v) (hw : 9 ≤ w) (p : Bool) :
    SameValue .bool (boolBits p : Word v) (boolBits p : Word w) := by
  change (boolBits p : Word v).toNat = (boolBits p : Word w).toNat
  rw [boolBits_toNat (by omega), boolBits_toNat (by omega)]

theorem sameValue_distBits (hv : 9 ≤ v) (hw : 9 ≤ w) (x y : SeqNum) :
    SameValue .int (distBits (distance x y) : Word v) (distBits (distance x y) : Word w) := by
  change (distBits (distance x y) : Word v).toInt = (distBits (distance x y) : Word w).toInt
  rw [distBits_toInt hv, distBits_toInt hw]

theorem withSeqSeq_agree {a b : Operand v} {a' b' : Operand w} {f : SeqNum → SeqNum → State v} {g : SeqNum → SeqNum → State w}
    (h : readSeqSeq a b = readSeqSeq a' b') (hf : ∀ x y, Agree s u (f x y) (g x y)) :
    Agree s u (withSeqSeq a b s f) (withSeqSeq a' b' u g) := by
  rw [withSeqSeq, withSeqSeq, h]
  cases readSeqSeq a' b' with
  | ok p => exact hf p.1 p.2
  | error e => exact agree_raise e

theorem comparison_agree (hv : 9 ≤ v) (hw : 9 ≤ w) (p : SeqNum → SeqNum → Bool) {a b : Operand v} {a' b' : Operand w}
    (ha : SameReading a a') (hb : SameReading b b') : Agree s u (comparison p a b s) (comparison p a' b' u) :=
  withSeqSeq_agree (readSeqSeq_congr hv hw ha hb) fun _ _ => agree_respond false (sameValue_boolBits hv hw _) id id

theorem withSeqInt_agree {a b : Operand v} {a' b' : Operand w} {f : SeqNum → Int → State v} {g : SeqNum → Int → State w}
    (h : readSeqInt a b = readSeqInt a' b') (hf : ∀ x n, Agree s u (f x n) (g x n)) :
    Agree s u (withSeqInt a b s f) (withSeqInt a' b' u g) := by
  rw [withSeqInt, withSeqInt, h]
  cases readSeqInt a' b' with
  | ok p => exact hf p.1 p.2
  | error e => exact agree_raise e

theorem withInt_agree {a : Operand v} {a' : Operand w} {f : Int → State v} {g : Int → State w}
    (h : readInt a = readInt a') (hf : ∀ n, Agree s u (f n) (g n)) : Agree s u (withInt a s f) (withInt a' u g) := by
  rw [withInt, withInt, h]
  cases readInt a' with
  | ok n => exact hf n
  | error e => exact agree_raise e

theorem withRange_agree {f : State v → State v} {g : State w → State w} (h : SameIterator s u)
    (hf : Agree s u (f s) (g u)) : Agree s u (withRange s f) (withRange u g) := by
  obtain ⟨-, -, -, hloaded⟩ := h
  rw [withRange, withRange, hloaded]
  split
  · exact hf
  · exact agree_raise _

theorem takeElement_agree (hv : 9 ≤ v) (hw : 9 ≤ w) (h : SameIterator s u) : Agree s u (takeElement s) (takeElement u) := by
  obtain ⟨hstart, hend, hcur, hloaded⟩ := h
  rw [takeElement, takeElement, hcur, hend]
  split
  · exact agree_respond true (sameValue_zero _) id id
  · exact agree_respond false (sameValue_seqBits hv hw _) (fun _ => ⟨hstart, hend, rfl, hloaded⟩) id

theorem restart_agree (h : SameIterator s u) :
    Agree s u (respond .none 0 false (setCur s.srStart s)) (respond .none 0 false (setCur u.srStart u)) := by
  obtain ⟨hstart, hend, -, hloaded⟩ := h
  exact agree_respond false (sameValue_zero _) (fun _ => ⟨hstart, hend, hstart, hloaded⟩) id

end Agreement

/-! ## One command on two blocks -/

/-- The same row of the table of R41 with other operands, on ports of any width. -/
def withOperands {v w : Nat} (i : Instr v) (a b : Operand w) : Instr w :=
  match i with
  | .norm _ _ => .norm a b
  | .dist _ _ => .dist a b
  | .add _ _ => .add a b
  | .subn _ _ => .subn a b
  | .lt _ _ => .lt a b
  | .le _ _ => .le a b
  | .gt _ _ => .gt a b
  | .ge _ _ => .ge a b
  | .eq _ _ => .eq a b
  | .srstart _ _ => .srstart a b
  | .srnext _ _ => .srnext a b
  | .srrestart _ _ => .srrestart a b

theorem withOperands_self {w : Nat} (i : Instr w) : withOperands i i.opA i.opB = i := by cases i <;> rfl

/-- An `op` value selects the same row whatever the operands are. -/
theorem instrOfOp_withOperands {v w : Nat} (op : Nat) (a b : Operand v) (a' b' : Operand w) :
    instrOfOp op a' b' = (instrOfOp op a b).map (withOperands · a' b') := by
  unfold instrOfOp
  split <;> rfl

/-- The decoder reads the same row, or answers the same error, from equal command words (R50). -/
theorem decode_withOperands {v w : Nat} {c : Command v} {d : Command w} (h : c.cmd = d.cmd) :
    decode d = (decode c).map (withOperands · (cmdA d) (cmdB d)) := by
  have hrsv : cmdRsv d = cmdRsv c := by rw [cmdRsv, cmdRsv, h]
  have hop : cmdOp d = cmdOp c := by rw [cmdOp, cmdOp, h]
  have hkindA : (cmdA d).kind = (cmdA c).kind := by rw [cmdA, cmdA, h]
  have hkindB : (cmdB d).kind = (cmdB c).kind := by rw [cmdB, cmdB, h]
  have hsel := instrOfOp_withOperands (cmdOp c).toNat (cmdA c) (cmdB c) (cmdA d) (cmdB d)
  rw [decode, decode, hrsv, hop, hkindA, hkindB, hsel]
  by_cases hr : cmdRsv c ≠ 0
  · rw [if_pos hr, if_pos hr]
    rfl
  · rw [if_neg hr, if_neg hr]
    cases instrOfOp (cmdOp c).toNat (cmdA c) (cmdB c) with
    | none => rfl
    | some i =>
      dsimp only [Option.map]
      split
      · rfl
      · split <;> rfl

theorem decode_operands {w : Nat} {c : Command w} {i : Instr w} (h : decode c = .ok i) : i.opA = cmdA c ∧ i.opB = cmdB c := by
  rcases decode_cases c with ⟨-, hd⟩ | ⟨-, j, hj, ⟨-, hd⟩ | ⟨-, -, hd⟩⟩ <;> rw [h] at hd <;> cases hd
  exact instrOfOp_operands hj

section Commands

variable {v w : Nat} (hv : 9 ≤ v) (hw : 9 ≤ w)
include hv hw

/-- A command on operands that read alike leaves two blocks in agreement; only an `srange` command reads their iterators. -/
theorem execAt_agree (i : Instr v) {a b : Operand w} {s : State v} {u : State w} (ha : SameReading i.opA a)
    (hb : SameReading i.opB b) (hit : isSrange i = true → SameIterator s u) :
    ∃ t r, execAt i s = .next t ∧ execAt (withOperands i a b) u = .next r ∧ Agree s u t r := by
  cases i with
  | norm x y =>
    exact ⟨_, _, execAt_norm .., execAt_norm .., withInt_agree (readInt_congr ha) fun _ =>
      agree_respond false (sameValue_seqBits hv hw _) id id⟩
  | dist x y =>
    exact ⟨_, _, execAt_dist .., execAt_dist .., withSeqSeq_agree (readSeqSeq_congr hv hw ha hb) fun _ _ =>
      agree_respond false (sameValue_distBits hv hw _ _) id id⟩
  | add x y =>
    exact ⟨_, _, execAt_add .., execAt_add .., withSeqInt_agree (readSeqInt_congr hv hw ha hb) fun _ _ =>
      agree_respond false (sameValue_seqBits hv hw _) id id⟩
  | subn x y =>
    exact ⟨_, _, execAt_subn .., execAt_subn .., withSeqInt_agree (readSeqInt_congr hv hw ha hb) fun _ _ =>
      agree_respond false (sameValue_seqBits hv hw _) id id⟩
  | lt x y => exact ⟨_, _, execAt_lt .., execAt_lt .., comparison_agree hv hw seqLt ha hb⟩
  | le x y => exact ⟨_, _, execAt_le .., execAt_le .., comparison_agree hv hw seqLe ha hb⟩
  | gt x y => exact ⟨_, _, execAt_gt .., execAt_gt .., comparison_agree hv hw seqGt ha hb⟩
  | ge x y => exact ⟨_, _, execAt_ge .., execAt_ge .., comparison_agree hv hw seqGe ha hb⟩
  | eq x y => exact ⟨_, _, execAt_eq .., execAt_eq .., comparison_agree hv hw seqEq ha hb⟩
  | srstart x y =>
    exact ⟨_, _, execAt_srstart .., execAt_srstart .., withSeqSeq_agree (readSeqSeq_congr hv hw ha hb) fun _ _ =>
      agree_respond false (sameValue_zero _) (fun _ => ⟨rfl, rfl, rfl, rfl⟩) id⟩
  | srnext x y =>
    have hs := hit rfl
    exact ⟨_, _, execAt_srnext .., execAt_srnext .., withRange_agree hs (takeElement_agree hv hw hs)⟩
  | srrestart x y =>
    have hs := hit rfl
    exact ⟨_, _, execAt_srrestart .., execAt_srrestart .., withRange_agree hs (restart_agree hs)⟩

/-- An accepted command word on port values that read alike leaves two blocks in agreement (R94). -/
theorem acceptAt_agree {c : Command v} {d : Command w} {s : State v} {u : State w} (hcmd : c.cmd = d.cmd)
    (ha : c.aVal.toInt = d.aVal.toInt) (hb : c.bVal.toInt = d.bVal.toInt) (hs : SameIterator s u) :
    ∃ t r, acceptAt c s = .next t ∧ acceptAt d u = .next r ∧ Agree s u t r := by
  have hdec := decode_withOperands hcmd
  rw [acceptAt, acceptAt, acceptWith, acceptWith, hdec]
  cases hc : decode c with
  | error e => exact ⟨_, _, rfl, rfl, agree_raise e⟩
  | ok i =>
    obtain ⟨hA, hB⟩ := decode_operands hc
    have hra : SameReading i.opA (cmdA d) := by rw [hA]; exact ⟨by rw [cmdA, cmdA, hcmd], ha⟩
    have hrb : SameReading i.opB (cmdB d) := by rw [hB]; exact ⟨by rw [cmdB, cmdB, hcmd], hb⟩
    exact execAt_agree hv hw i hra hrb fun _ => hs

end Commands

/-- A command on two states of the default block leaves them in agreement; only an `srange` command reads the iterator. -/
theorem exec_agree (i : Instr) (s u : State) (hit : isSrange i = true → SameIterator s u) :
    ∃ t r, exec i s = .next t ∧ exec i u = .next r ∧ Agree s u t r := by
  have h := execAt_agree Config.nine_le_intW Config.nine_le_intW i (.refl i.opA) (.refl i.opB) hit
  rwa [withOperands_self, ← exec_eq_execAt, ← exec_eq_execAt] at h

theorem step_eq_stepAt (s : State) : step s = stepAt s := by
  have hrun : exec = execAt := funext fun i => funext fun t => exec_eq_execAt i t
  rw [step, clockEdge, stepAt, hrun]

/-- `DIST` of two sequence numbers answers their distance, on ports of every width that hold one (R55). -/
theorem execAt_dist_seqOperand {w : Nat} (hw : 8 ≤ w) (x y : SeqNum) (s : State w) :
    execAt (.dist (seqOperand x) (seqOperand y)) s = .next (respond .int (distBits (distance x y)) false s) := by
  have hread (z : SeqNum) : ReadableSeq (seqOperand z : Operand w) :=
    ⟨rfl, by rw [seqOperand_val, seqBits_toNat hw]; exact z.isLt⟩
  rw [execAt_dist, withSeqSeq, readSeqSeq_ok hw (hread x) (hread y)]
  simp only [seqOperand_val, seqOf_seqBits hw]

/-! ## The obligations -/

/-- Settles O1: the blocks of two widths stay in agreement, and 8 bits cannot hold the distance 255 of 127 and 128. -/
theorem everyPortWidthHoldsTheSameAnswers : Obligations.EveryPortWidthHoldsTheSameAnswers := by
  unfold Obligations.EveryPortWidthHoldsTheSameAnswers
  refine ⟨fun w x y s hw => ?_, ⟨127, 128, fun s t _ => ?_⟩, fun v w cmd a b s u hv hw halo hahi hblo hbhi hs => ?_,
    exec_eq_execAt, step_eq_stepAt⟩
  · refine ⟨_, execAt_dist_seqOperand (by omega) x y s, rfl, rfl, rfl, ?_⟩
    rw [respond_rsp, distBits_toInt hw, signedRep_toNat, signedRep_toNat, distance]
  · have hval : t.rsp.val.toInt < 2 ^ 7 := BitVec.toInt_lt
    have hdist : signedRep (127 : SeqNum).toNat - signedRep (128 : SeqNum).toNat = 255 := by decide
    omega
  · obtain ⟨hit, hst⟩ := (sameRegisters_iff s u).mp hs
    obtain ⟨t, r, ht, hr, hagree⟩ := acceptAt_agree hv hw
      (c := ⟨cmd, BitVec.ofInt v a, BitVec.ofInt v b⟩) (d := ⟨cmd, BitVec.ofInt w a, BitVec.ofInt w b⟩) rfl
      (by rw [toInt_ofInt_of_nine_le hv halo hahi, toInt_ofInt_of_nine_le hw halo hahi])
      (by rw [toInt_ofInt_of_nine_le hv hblo hbhi, toInt_ofInt_of_nine_le hw hblo hbhi]) hit
    exact ⟨t, r, ht, hr, (sameRegisters_iff t r).mpr ⟨hagree.iterator hit, hagree.sticky hst⟩, hagree.answer⟩

/-- Settles O2: one command on two states of one block leaves them in agreement. -/
theorem responsesDependOnlyOnWhatTheCommandReads : Obligations.ResponsesDependOnlyOnWhatTheCommandReads := by
  unfold Obligations.ResponsesDependOnlyOnWhatTheCommandReads
  refine ⟨fun i s u hpure => ?_, fun i s u _ hstart hend hcur hloaded => ?_⟩
  · obtain ⟨t, r, ht, hr, hagree⟩ := exec_agree i s u fun h => by simp [hpure] at h
    rw [responseOf, responseOf, ht, hr]
    exact eq_of_sameAnswer hagree.answer
  · have hit : SameIterator s u := ⟨hstart, hend, hcur, hloaded⟩
    obtain ⟨t, r, ht, hr, hagree⟩ := exec_agree i s u fun _ => hit
    exact ⟨t, r, ht, hr, eq_of_sameAnswer hagree.answer, hagree.iterator hit⟩

end Sys2Proof.Scope
end

section
/-! # The registers and the invariants of the state (10_state.md)

A step leaves the block in one of four ways (`EdgeEnding`), and a command in one of the six of `Ending`. What each register
holds afterwards is read off these cases. A response's value is bounded once per result kind (`ValueFits`), which `Ending` does
not say. -/

namespace Sys2Proof.StateRules

open Sys2Proof.Machine Sys2Proof.Safety Sys2Proof.Scope

/-! ## What one edge leaves -/

/-- The ways an edge can end, with the state it leaves. -/
inductive EdgeEnding {w : Nat} (s : State w) : State w → Prop where
  /-- `rst = 1` (R105). -/
  | reset (hrst : (currentEdge s).rst = true) : EdgeEnding s (resetEdge (dropInput s))
  /-- An accepted command that the decoder rejects (R94). -/
  | rejected (hrst : (currentEdge s).rst = false) (hvalid : (currentEdge s).reqValid = true) (e : CmdError) :
      EdgeEnding s (raise e (dropInput s))
  /-- An accepted command that runs (R39). -/
  | ran (hrst : (currentEdge s).rst = false) (hvalid : (currentEdge s).reqValid = true) (i : Instr w)
      (hdec : decode (currentEdge s).command = .ok i) (t : State w) (hrun : execAt i (dropInput s) = .next t) :
      EdgeEnding s t
  /-- No command at the edge (R39, R91). -/
  | idle (hrst : (currentEdge s).rst = false) (hvalid : (currentEdge s).reqValid = false) :
      EdgeEnding s (idleEdge (dropInput s))

theorem edgeEnding_of_stepAt {w : Nat} {s t : State w} (h : stepAt s = .next t) : EdgeEnding s t := by
  rcases stepAt_cases s with ⟨hrst, hs⟩ | ⟨hrst, hvalid, hs⟩ | ⟨hrst, hvalid, hs⟩ <;> rw [hs] at h
  · cases h
    exact .reset hrst
  · rcases acceptWith_cases execAt (currentEdge s).command (dropInput s) with ⟨i, hdec, ha⟩ | ⟨e, -, ha⟩ <;>
      rw [acceptAt, ha] at h
    · exact .ran hrst hvalid i hdec t h
    · cases h
      exact .rejected hrst hvalid e
  · cases h
    exact .idle hrst hvalid

theorem edgeEnding_of_step {s t : State} (h : step s = .next t) : EdgeEnding s t :=
  edgeEnding_of_stepAt (step_eq_stepAt s ▸ h)

/-- No error shares the code of `OK` (R92). -/
theorem raise_err_ne_zero {w : Nat} (e : CmdError) (s : State w) : (raise e s).rsp.err ≠ 0 := by
  change errCode e ≠ 0
  cases e <;> decide

/-! ## Which registers a command writes -/

section Commands

variable {w : Nat} {i : Instr w} {s t : State w}

/-- Every command loads the response register (R89, R93). -/
theorem rsp_valid_of_ending (h : Ending i s t) : t.rsp.valid = true := by cases h <;> rfl

/-- R18: a command sets `STICKY_ERR` exactly on an error response, and never clears it. -/
theorem stickyErr_iff_of_ending (h : Ending i s t) : t.stickyErr = true ↔ s.stickyErr = true ∨ t.rsp.err ≠ 0 := by
  cases h with
  | failed e => exact ⟨fun _ => .inr (raise_err_ne_zero e s), fun _ => rfl⟩
  | result | started | exhausted | element | restarted => simp [okCode]

/-- R27: outside the `srange` family, or on an error, a command writes no iterator register. -/
theorem sameIterator_of_ending (h : Ending i s t) (hi : isSrange i = false ∨ t.rsp.err ≠ 0) : SameIterator t s := by
  cases h with
  | failed | result => exact ⟨rfl, rfl, rfl, rfl⟩
  | started _ _ hsr | exhausted hsr | element hsr | restarted hsr => simp [hsr, okCode] at hi

/-- R17: no command clears `SR_LOADED`. -/
theorem srLoaded_of_ending (h : Ending i s t) (hl : s.srLoaded = true) : t.srLoaded = true := by
  cases h with
  | started => rfl
  | failed | result | exhausted | element | restarted => exact hl

theorem isSrange_cases (h : isSrange i = true) :
    ∃ a b, i = .srstart a b ∨ i = .srnext a b ∨ i = .srrestart a b := by
  cases i with
  | srstart a b | srnext a b | srrestart a b => exact ⟨a, b, by simp⟩
  | norm | dist | add | subn | lt | le | gt | ge | eq => cases h

theorem withRange_of_not_loaded (hl : s.srLoaded = false) (f : State w → State w) : withRange s f = failed s 4 := by
  rw [withRange, if_neg (by simp [hl])]
  rfl

/-- R17: of the commands only `SRSTART` sets `SR_LOADED`. -/
theorem srstart_of_srLoaded_rises (hw : 8 ≤ w) (h : execAt i s = .next t) (hs : s.srLoaded = false)
    (ht : t.srLoaded = true) : ∃ a b, i = .srstart a b := by
  cases hi : isSrange i with
  | false =>
    obtain ⟨-, -, -, hsame⟩ := sameIterator_of_ending (ending_of_execAt hw h) (.inl hi)
    rw [hsame, hs] at ht
    cases ht
  | true =>
    obtain ⟨a, b, rfl | rfl | rfl⟩ := isSrange_cases hi
    · exact ⟨a, b, rfl⟩
    · rw [execAt_srnext, withRange_of_not_loaded hs] at h
      cases h
      exact absurd (hs.symm.trans ht) nofun
    · rw [execAt_srrestart, withRange_of_not_loaded hs] at h
      cases h
      exact absurd (hs.symm.trans ht) nofun

end Commands

theorem exec_of_not_loaded (a b : Operand) {s : State} (hl : s.srLoaded = false) :
    exec (.srnext a b) s = .next (failed s 4) ∧ exec (.srrestart a b) s = .next (failed s 4) := by
  rw [exec_srnext, exec_srrestart, withRange_of_not_loaded hl, withRange_of_not_loaded hl]
  exact ⟨rfl, rfl⟩

/-- With nothing held, a response depends on the command alone (R17). -/
theorem responseOf_of_not_loaded (i : Instr) {s u : State} (hs : s.srLoaded = false) (hu : u.srLoaded = false) :
    responseOf i s = responseOf i u := by
  cases hi : isSrange i with
  | false => exact responsesDependOnlyOnWhatTheCommandReads.1 i s u hi
  | true =>
    obtain ⟨a, b, rfl | rfl | rfl⟩ := isSrange_cases hi
    · rw [responseOf, responseOf, exec_srstart, exec_srstart, withSeqSeq, withSeqSeq]
      cases readSeqSeq a b <;> rfl
    · rw [responseOf, responseOf, (exec_of_not_loaded a b hs).1, (exec_of_not_loaded a b hu).1]
      rfl
    · rw [responseOf, responseOf, (exec_of_not_loaded a b hs).2, (exec_of_not_loaded a b hu).2]
      rfl

/-! ## The forward path (R26) -/

section ForwardPath

variable {w : Nat} {s t : State w}

theorem onForwardPath_loadRange (x y : SeqNum) (s : State w) : OnForwardPath (loadRange x y s) := by
  intro _
  simp only [loadRange_srStart, loadRange_srCur]
  omega

/-- A cursor short of the end stays on the path when it moves one forward. -/
theorem onForwardPath_advance (hs : OnForwardPath s) (hne : s.srCur ≠ s.srEnd) :
    OnForwardPath (setCur (stepForward s.srCur 1) s) := by
  intro hl
  have hpath := hs hl
  have hnext := stepForward_toNat s.srCur 1
  have hneNat : s.srCur.toNat ≠ s.srEnd.toNat := fun h => hne (BitVec.eq_of_toNat_eq h)
  simp only [setCur_srStart, setCur_srEnd, setCur_srCur, hnext]
  omega

theorem onForwardPath_restart (s : State w) : OnForwardPath (setCur s.srStart s) := by
  intro _
  simp only [setCur_srStart, setCur_srCur]
  omega

/-- Every command keeps `SR_CUR` on the forward path. -/
theorem onForwardPath_of_ending {i : Instr w} (h : Ending i s t) (hs : OnForwardPath s) : OnForwardPath t := by
  cases h with
  | failed | result | exhausted => exact hs
  | started x y => exact onForwardPath_loadRange x y s
  | element _ _ hne => exact onForwardPath_advance hs hne
  | restarted => exact onForwardPath_restart s

theorem onForwardPath_of_stepAt (hw : 8 ≤ w) (h : stepAt s = .next t) (hs : OnForwardPath s) : OnForwardPath t := by
  cases edgeEnding_of_stepAt h with
  | reset => exact nofun
  | rejected | idle => exact hs
  | ran _ _ _ _ _ hrun => exact onForwardPath_of_ending (ending_of_execAt hw hrun) hs

end ForwardPath

/-! ## The response (R25, R90, R92) -/

/-- The values R25 and R90 allow under a result kind. -/
def ValueFits {w : Nat} (k : ResultKind) (v : Word w) : Prop :=
  match k with
  | .none => v = 0
  | .seq => v.toNat < 256
  | .int => -255 ≤ v.toInt ∧ v.toInt ≤ 255
  | .bool => v.toNat ≤ 1

section Responses

variable {w : Nat} {s t : State w}

theorem valueFits_seqBits (hw : 8 ≤ w) (x : SeqNum) : ValueFits .seq (seqBits x : Word w) := by
  rw [ValueFits, seqBits_toNat hw]
  exact x.isLt

theorem valueFits_distBits (hw : 9 ≤ w) (x y : SeqNum) : ValueFits .int (distBits (distance x y) : Word w) := by
  rw [ValueFits, distBits_toInt hw]
  exact distance_bounds x y

theorem valueFits_boolBits (hw : 1 ≤ w) (p : Bool) : ValueFits .bool (boolBits p : Word w) := by
  rw [ValueFits, boolBits_toNat hw]
  exact p.toNat_le

theorem responseWf_respond {k : ResultKind} {v : Word w} (hv : ValueFits k v) (s : State w) :
    ResponseWf (respond k v false s).rsp := by
  intro _
  cases k <;> simp_all [ValueFits, okCode, kindCode]

theorem responseWf_exhausted (s : State w) : ResponseWf (respond .none 0 true s).rsp := by
  intro _
  simp [okCode, kindCode]

theorem responseWf_raise (e : CmdError) (s : State w) : ResponseWf (raise e s).rsp := by
  intro _
  cases e <;> simp [errCode, kindCode]

theorem responseWf_withSeqSeq {a b : Operand w} {f : SeqNum → SeqNum → State w} (hf : ∀ x y, ResponseWf (f x y).rsp) :
    ResponseWf (withSeqSeq a b s f).rsp := by
  rw [withSeqSeq]
  cases readSeqSeq a b with
  | ok p => exact hf p.1 p.2
  | error e => exact responseWf_raise e s

theorem responseWf_withSeqInt {a b : Operand w} {f : SeqNum → Int → State w} (hf : ∀ x n, ResponseWf (f x n).rsp) :
    ResponseWf (withSeqInt a b s f).rsp := by
  rw [withSeqInt]
  cases readSeqInt a b with
  | ok p => exact hf p.1 p.2
  | error e => exact responseWf_raise e s

theorem responseWf_withInt {a : Operand w} {f : Int → State w} (hf : ∀ n, ResponseWf (f n).rsp) :
    ResponseWf (withInt a s f).rsp := by
  rw [withInt]
  cases readInt a with
  | ok n => exact hf n
  | error e => exact responseWf_raise e s

theorem responseWf_withRange {f : State w → State w} (hf : ResponseWf (f s).rsp) : ResponseWf (withRange s f).rsp := by
  rcases withRange_cases s f with ⟨-, h⟩ | ⟨-, h⟩ <;> rw [h]
  · exact hf
  · exact responseWf_raise .noRange s

theorem responseWf_takeElement (hw : 8 ≤ w) (s : State w) : ResponseWf (takeElement s).rsp := by
  rcases takeElement_cases s with ⟨-, h⟩ | ⟨-, h⟩ <;> rw [h]
  · exact responseWf_exhausted s
  · exact responseWf_respond (valueFits_seqBits hw _) _

theorem responseWf_comparison (hw : 1 ≤ w) (p : SeqNum → SeqNum → Bool) (a b : Operand w) (s : State w) :
    ResponseWf (comparison p a b s).rsp :=
  responseWf_withSeqSeq fun _ _ => responseWf_respond (valueFits_boolBits hw _) _

/-- Every command answers a well-formed response, on ports of at least 9 bits. -/
theorem responseWf_of_execAt (hw : 9 ≤ w) {i : Instr w} (h : execAt i s = .next t) : ResponseWf t.rsp := by
  have hseq (x : SeqNum) (u : State w) : ResponseWf (respond .seq (seqBits x) false u).rsp :=
    responseWf_respond (valueFits_seqBits (by omega) x) u
  have hnone (u : State w) : ResponseWf (respond .none 0 false u).rsp := responseWf_respond (k := .none) rfl u
  cases i with
  | norm a b => cases h; exact responseWf_withInt fun n => hseq _ s
  | dist a b => cases h; exact responseWf_withSeqSeq fun x y => responseWf_respond (valueFits_distBits hw x y) s
  | add a b => cases h; exact responseWf_withSeqInt fun x n => hseq _ s
  | subn a b => cases h; exact responseWf_withSeqInt fun x n => hseq _ s
  | lt a b => cases h; exact responseWf_comparison (by omega) seqLt a b s
  | le a b => cases h; exact responseWf_comparison (by omega) seqLe a b s
  | gt a b => cases h; exact responseWf_comparison (by omega) seqGt a b s
  | ge a b => cases h; exact responseWf_comparison (by omega) seqGe a b s
  | eq a b => cases h; exact responseWf_comparison (by omega) seqEq a b s
  | srstart a b => cases h; exact responseWf_withSeqSeq fun x y => hnone _
  | srnext a b => cases h; exact responseWf_withRange (responseWf_takeElement (by omega) s)
  | srrestart a b => cases h; exact responseWf_withRange (hnone _)

theorem responseWf_of_stepAt (hw : 9 ≤ w) (h : stepAt s = .next t) : ResponseWf t.rsp := by
  cases edgeEnding_of_stepAt h with
  | reset | idle => exact nofun
  | rejected _ _ e => exact responseWf_raise e _
  | ran _ _ _ _ _ hrun => exact responseWf_of_execAt hw hrun

/-- An error response of any step is remembered: a command sets `STICKY_ERR` with it, and no other edge shows a response. -/
theorem errorIsSticky_of_stepAt (hw : 8 ≤ w) (h : stepAt s = .next t) : ErrorIsSticky t := by
  cases edgeEnding_of_stepAt h with
  | reset | idle => exact nofun
  | rejected => exact fun _ _ => rfl
  | ran _ _ _ _ _ hrun => exact fun _ herr => (stickyErr_iff_of_ending (ending_of_execAt hw hrun)).mpr (.inr herr)

end Responses

theorem inv_of_stepAt {w : Nat} (hw : 9 ≤ w) {s t : State w} (hs : Inv s) (h : stepAt s = .next t) : Inv t := by
  obtain ⟨hpath, -, -⟩ := hs
  exact ⟨onForwardPath_of_stepAt (by omega) h hpath, responseWf_of_stepAt hw h, errorIsSticky_of_stepAt (by omega) h⟩

/-! ## The obligations -/

/-- Settles O60: the forward path is kept, and every step makes the other two invariants anew. -/
theorem everyStepKeepsTheInvariants : Obligations.EveryStepKeepsTheInvariants := by
  unfold Obligations.EveryStepKeepsTheInvariants
  refine ⟨fun s t hs h => ?_, fun w s t hw hs h => inv_of_stepAt hw hs h⟩
  rw [step_eq_stepAt] at h
  exact inv_of_stepAt Config.nine_le_intW hs h

/-- Settles O4: case by case of what an edge can do to `SR_LOADED`. -/
theorem loadedFlagGuardsTheIterator : Obligations.LoadedFlagGuardsTheIterator := by
  unfold Obligations.LoadedFlagGuardsTheIterator
  refine ⟨fun i s x y z hl => responseOf_of_not_loaded i hl hl, fun a b s hl => exec_of_not_loaded a b hl,
    fun s t e es hin h hs ht => ?_, fun s t e es hin h hs ht => ?_⟩
  · rw [← currentEdge_cons s e es hin]
    cases edgeEnding_of_step h with
    | reset => cases ht
    | rejected | idle => exact absurd (hs.symm.trans ht) nofun
    | ran hrst hvalid i hdec _ hrun =>
      obtain ⟨a, b, rfl⟩ := srstart_of_srLoaded_rises eight_le_intW hrun hs ht
      exact ⟨hrst, hvalid, a, b, hdec⟩
  · rw [← currentEdge_cons s e es hin]
    cases edgeEnding_of_step h with
    | reset hrst => exact hrst
    | rejected | idle => exact absurd (hs.symm.trans ht) nofun
    | ran _ _ _ _ _ hrun =>
      rw [srLoaded_of_ending (ending_of_execAt eight_le_intW hrun) hs] at ht
      cases ht

/-- Settles O5: case by case of what an edge can do. -/
theorem stickyErrRemembersEveryError : Obligations.StickyErrRemembersEveryError := by
  unfold Obligations.StickyErrRemembersEveryError
  intro s t e es hin h
  rw [← currentEdge_cons s e es hin]
  cases edgeEnding_of_step h with
  | reset hrst => simp [hrst]
  | rejected hrst hvalid e => exact ⟨fun _ => ⟨hrst, .inr ⟨hvalid, rfl, raise_err_ne_zero e _⟩⟩, fun _ => rfl⟩
  | idle hrst hvalid => simp [hrst, hvalid]
  | ran hrst hvalid _ _ _ hrun =>
    have hend := ending_of_execAt eight_le_intW hrun
    rw [stickyErr_iff_of_ending hend, rsp_valid_of_ending hend]
    simp [hrst, hvalid]

/-- Settles O7: every command answers a well-formed response, and no other edge answers. -/
theorem everyResponseIsWellFormed : Obligations.EveryResponseIsWellFormed := by
  unfold Obligations.EveryResponseIsWellFormed
  intro s t h
  rw [step_eq_stepAt] at h
  exact responseWf_of_stepAt Config.nine_le_intW h

/-- Settles O8: an `SRSTART` that succeeds has loaded the cursor with the start, and the other commands keep the path. -/
theorem cursorStaysOnTheForwardPath : Obligations.CursorStaysOnTheForwardPath := by
  unfold Obligations.CursorStaysOnTheForwardPath
  refine ⟨fun a b s t h herr => ?_, fun i s t hs h => onForwardPath_of_ending (ending_of_exec h) hs⟩
  rw [exec_srstart] at h
  cases h
  rcases withSeqSeq_cases eight_le_intW a b s fun x y => respond .none 0 false (loadRange x y s) with
    ⟨-, -, h⟩ | ⟨-, h⟩ | ⟨-, -, -, h⟩ <;> rw [h] at herr ⊢
  · exact onForwardPath_loadRange _ _ s
  · exact absurd herr (raise_err_ne_zero _ s)
  · exact absurd herr (raise_err_ne_zero _ s)

/-- Settles O9: the frame of each way a command can end. -/
theorem iteratorIsWrittenOnlyBySrangeCommands : Obligations.IteratorIsWrittenOnlyBySrangeCommands := by
  unfold Obligations.IteratorIsWrittenOnlyBySrangeCommands
  intro i s t h
  have hend := ending_of_exec h
  exact ⟨sameIterator_of_ending hend, stickyErr_iff_of_ending hend, exec_own_fields h⟩

/-- Settles O3: the registers of `Registers.reset`, which `State.reset` starts with. -/
theorem resetLeavesEveryRegisterZero : Obligations.ResetLeavesEveryRegisterZero :=
  ⟨rfl, rfl, rfl, rfl, rfl, rfl⟩

/-- Settles O59: after reset no sequence is held and no response stands on the port. -/
theorem resetMeetsTheInvariants : Obligations.ResetMeetsTheInvariants :=
  ⟨nofun, nofun, nofun⟩

end Sys2Proof.StateRules
end

section
/-! # Repeating a command (20_memory.md, R31)

Each operand form hands its command the operands it reads, which do not depend on the state, or answers `raise`. So a command
repeats itself (`execAt_repeats`) as soon as what it does with those operands does. `SRNEXT` does not: taking an element moves the
cursor, and the first done changes the response (`takeElement_ne_self`). -/

namespace Sys2Proof.MemoryRules

open Sys2Proof.Machine

/-! ## The word of `SRNEXT` (R41, R45) -/

/-- The op field selects the command with its own `op` value. -/
theorem op_of_instrOfOp {w op : Nat} {a b : Operand w} {i : Instr w} (h : instrOfOp op a b = some i) :
    op = (opOfInstr i).toNat := by
  unfold instrOfOp at h
  split at h <;> cases h <;> rfl

/-- A word that decodes has no reserved bit set and the `op` value of its command. -/
theorem fields_of_decode {w : Nat} {c : Command w} {i : Instr w} (h : decode c = .ok i) :
    cmdRsv c = 0 ∧ cmdOp c = opOfInstr i := by
  rcases decode_cases c with ⟨-, hd⟩ | ⟨hrsv, j, hj, ⟨-, hd⟩ | ⟨-, -, hd⟩⟩ <;> rw [h] at hd <;> cases hd
  exact ⟨hrsv, BitVec.eq_of_toNat_eq (op_of_instrOfOp hj)⟩

/-- The mask of `SRNEXT` clears the kind tags of the two operands it ignores, and keeps `rsv` and `op` (R38). -/
theorem cmd_and_0xCF_eq_srnext_iff {w : Nat} (c : Command w) : c.cmd &&& 0xCF = 0x0A ↔ cmdRsv c = 0 ∧ cmdOp c = 0xA := by
  rw [cmdRsv, cmdOp]
  generalize c.cmd = x
  revert x
  decide

theorem decode_srnext_iff {w : Nat} (c : Command w) : (∃ a b, decode c = .ok (.srnext a b)) ↔ c.cmd &&& 0xCF = 0x0A := by
  rw [cmd_and_0xCF_eq_srnext_iff]
  refine ⟨fun ⟨a, b, h⟩ => fields_of_decode h, fun ⟨hrsv, hop⟩ => ⟨cmdA c, cmdB c, ?_⟩⟩
  simp [decode, hrsv, hop, instrOfOp, reqKinds, kindMeets]

theorem acceptCommand_of_decode {c : Command} {i : Instr} (h : decode c = .ok i) (s : State) : acceptCommand c s = exec i s := by
  rw [acceptCommand, acceptWith, h]

theorem acceptCommand_of_reject {c : Command} {e : CmdError} (h : decode c = .error e) (s : State) :
    acceptCommand c s = .next (raise e s) := by
  rw [acceptCommand, acceptWith, h]

theorem acceptCommand_srnext {c : Command} (hc : c.cmd &&& 0xCF = 0x0A) (s : State) :
    acceptCommand c s = .next (withRange s takeElement) := by
  obtain ⟨a, b, hd⟩ := (decode_srnext_iff c).mpr hc
  rw [acceptCommand_of_decode hd, exec_srnext]

/-! ## Commands that repeat themselves -/

section Repetition

variable {w : Nat} {s t : State w}

theorem respond_repeats {k : ResultKind} {v : Word w} {d : Bool} (h : respond k v d s = t) : respond k v d t = t := by
  subst h
  rfl

theorem raise_repeats {e : CmdError} (h : raise e s = t) : raise e t = t := by
  subst h
  rfl

theorem withSeqSeq_repeats {a b : Operand w} {f g : SeqNum → SeqNum → State w} (h : withSeqSeq a b s f = t)
    (hfg : ∀ x y, f x y = t → g x y = t) : withSeqSeq a b t g = t := by
  rw [withSeqSeq] at h ⊢
  generalize readSeqSeq a b = r at h ⊢
  cases r with
  | ok p => exact hfg p.1 p.2 h
  | error e => exact raise_repeats h

theorem withSeqInt_repeats {a b : Operand w} {f g : SeqNum → Int → State w} (h : withSeqInt a b s f = t)
    (hfg : ∀ x n, f x n = t → g x n = t) : withSeqInt a b t g = t := by
  rw [withSeqInt] at h ⊢
  generalize readSeqInt a b = r at h ⊢
  cases r with
  | ok p => exact hfg p.1 p.2 h
  | error e => exact raise_repeats h

theorem withInt_repeats {a : Operand w} {f g : Int → State w} (h : withInt a s f = t) (hfg : ∀ n, f n = t → g n = t) :
    withInt a t g = t := by
  rw [withInt] at h ⊢
  generalize readInt a = r at h ⊢
  cases r with
  | ok n => exact hfg n h
  | error e => exact raise_repeats h

theorem withRange_repeats {f : State w → State w} (h : withRange s f = t)
    (hf : f s = t → t.srLoaded = s.srLoaded ∧ f t = t) : withRange t f = t := by
  rcases withRange_cases s f with ⟨hl, hs⟩ | ⟨hl, hs⟩ <;> rw [hs] at h
  · obtain ⟨hkept, hagain⟩ := hf h
    rw [withRange, if_pos (hkept.trans hl), hagain]
  · have hkept : t.srLoaded = false := by rw [← h, raise_srLoaded, hl]
    rw [withRange, if_neg (by simp [hkept]), raise_repeats h]

/-- R31: on ports of every width, a command other than `SRNEXT` leaves a state that it leaves again. -/
theorem execAt_repeats {i : Instr w} (hi : ∀ a b, i ≠ .srnext a b) (h : execAt i s = .next t) : execAt i t = .next t := by
  cases i with
  | srnext a b => exact absurd rfl (hi a b)
  | norm =>
    rw [execAt_norm, Host.Outcome.next.injEq] at h ⊢
    exact withInt_repeats h fun _ => respond_repeats
  | add =>
    rw [execAt_add, Host.Outcome.next.injEq] at h ⊢
    exact withSeqInt_repeats h fun _ _ => respond_repeats
  | subn =>
    rw [execAt_subn, Host.Outcome.next.injEq] at h ⊢
    exact withSeqInt_repeats h fun _ _ => respond_repeats
  | dist | lt | le | gt | ge | eq =>
    simp only [execAt_dist, execAt_lt, execAt_le, execAt_gt, execAt_ge, execAt_eq, Host.Outcome.next.injEq] at h ⊢
    exact withSeqSeq_repeats h fun _ _ => respond_repeats
  | srstart =>
    rw [execAt_srstart, Host.Outcome.next.injEq] at h ⊢
    exact withSeqSeq_repeats h fun x y hxy => by subst hxy; rfl
  | srrestart =>
    rw [execAt_srrestart, Host.Outcome.next.injEq] at h ⊢
    exact withRange_repeats h fun hs => by subst hs; exact ⟨rfl, rfl⟩

end Repetition

/-! ## `SRNEXT` does not -/

theorem stepForward_one_ne (x : SeqNum) : stepForward x 1 ≠ x := by
  intro h
  have hnat := stepForward_toNat x 1
  rw [h] at hnat
  omega

/-- On a state whose response is not done, taking an element moves the cursor or answers the first done (R80). -/
theorem takeElement_ne_self {w : Nat} {s : State w} (hd : s.rsp.done = false) : takeElement s ≠ s := by
  intro h
  rcases takeElement_cases s with ⟨-, ht⟩ | ⟨-, ht⟩ <;> rw [h] at ht
  · have hdone : s.rsp.done = true := congrArg (·.rsp.done) ht
    exact absurd (hd.symm.trans hdone) nofun
  · have hcur : s.srCur = stepForward s.srCur 1 := congrArg (·.srCur) ht
    exact stepForward_one_ne s.srCur hcur.symm

/-! ## The obligation -/

/-- Settles O10: a rejected word raises its error again, a decoded one repeats itself unless it is an `SRNEXT`; and an `SRNEXT`
that returned an element changes the state it left. -/
theorem commandsButSrnextAreIdempotent : Obligations.CommandsButSrnextAreIdempotent := by
  unfold Obligations.CommandsButSrnextAreIdempotent
  refine ⟨fun c s t hc h => ?_, fun c s hc hl hne => ?_⟩
  · cases hd : decode c with
    | error e =>
      rw [acceptCommand_of_reject hd, Host.Outcome.next.injEq] at h ⊢
      exact raise_repeats h
    | ok i =>
      have hi : ∀ a b, i ≠ .srnext a b := fun a b hab => hc ((decode_srnext_iff c).mp ⟨a, b, hab ▸ hd⟩)
      rw [acceptCommand_of_decode hd, exec_eq_execAt] at h ⊢
      exact execAt_repeats hi h
  · have htake : takeElement s = respond .seq (seqBits s.srCur) false (setCur (stepForward s.srCur 1) s) := by
      rw [takeElement, if_neg hne]
    refine ⟨takeElement s, takeElement (takeElement s), ?_, ?_, takeElement_ne_self (by rw [htake]; rfl)⟩
    · rw [acceptCommand_srnext hc, withRange, if_pos hl]
    · rw [acceptCommand_srnext hc, withRange, if_pos (by rw [htake]; exact hl)]

end Sys2Proof.MemoryRules
end

section
/-! # The encoding of commands and the request port (30_encoding.md)

The decoder inverts the encoder: a triple is read as a command exactly if it is the triple of that command and the command is
well formed (`decode_eq_ok_iff`). Both sides are compared field by field, each field as the number it is in the command word
(`encode_eq_iff`). The opcode table and the reserved words are read off this, and so are the words the assembler writes. -/

namespace Sys2Proof.EncodingRules

open Sys2Proof.Machine Sys2Proof.Safety Sys2Proof.Scope Sys2Proof.StateRules Sys2Proof.MemoryRules
open Sys2Proof.Laws.TableRow (wordOf)

/-! ## The fields of a command word as numbers (R38) -/

section Fields

variable {w : Nat}

theorem cmdRsv_toNat (c : Command w) : (cmdRsv c).toNat = c.cmd.toNat / 64 := by
  rw [cmdRsv, BitVec.extractLsb'_toNat, Nat.shiftRight_eq_div_pow]
  omega

theorem cmdRsv_eq_zero_iff (c : Command w) : cmdRsv c = 0 ↔ c.cmd.toNat / 64 = 0 := by
  rw [← cmdRsv_toNat]
  exact BitVec.toNat_inj.symm

theorem cmdOp_toNat (c : Command w) : (cmdOp c).toNat = c.cmd.toNat % 16 := by
  rw [cmdOp, BitVec.extractLsb'_toNat, Nat.shiftRight_zero]

theorem cmdOp_eq_iff (c : Command w) (op : BitVec 4) : cmdOp c = op ↔ c.cmd.toNat % 16 = op.toNat := by
  rw [← cmdOp_toNat]
  exact BitVec.toNat_inj.symm

theorem eq_kindOfBit_iff (k : Kind) (b : BitVec 1) : k = kindOfBit b ↔ (bitOfKind k).toNat = b.toNat := by
  revert b
  cases k <;> decide

theorem eq_cmdA_iff (c : Command w) (a : Operand w) :
    a = cmdA c ↔ (bitOfKind a.kind).toNat = c.cmd.toNat / 16 % 2 ∧ a.val = c.aVal := by
  cases a
  rw [cmdA, Operand.mk.injEq, eq_kindOfBit_iff, BitVec.extractLsb'_toNat, Nat.shiftRight_eq_div_pow]

theorem eq_cmdB_iff (c : Command w) (b : Operand w) :
    b = cmdB c ↔ (bitOfKind b.kind).toNat = c.cmd.toNat / 32 % 2 ∧ b.val = c.bVal := by
  cases b
  rw [cmdB, Operand.mk.injEq, eq_kindOfBit_iff, BitVec.extractLsb'_toNat, Nat.shiftRight_eq_div_pow]

theorem wordOf_toNat (ka kb : Kind) (op : BitVec 4) :
    (wordOf ka kb op).toNat = op.toNat + 16 * (bitOfKind ka).toNat + 32 * (bitOfKind kb).toNat := by
  revert op
  cases ka <;> cases kb <;> decide

theorem encode_cmd_toNat (i : Instr w) :
    (encode i).cmd.toNat =
      (opOfInstr i).toNat + 16 * (bitOfKind i.opA.kind).toNat + 32 * (bitOfKind i.opB.kind).toNat :=
  wordOf_toNat i.opA.kind i.opB.kind (opOfInstr i)

/-- A triple is that of a command exactly if its fields are: the operands, no reserved bit, and the `op` value. -/
theorem encode_eq_iff (c : Command w) (i : Instr w) :
    encode i = c ↔ i.opA = cmdA c ∧ i.opB = cmdB c ∧ cmdRsv c = 0 ∧ cmdOp c = opOfInstr i := by
  have hword := encode_cmd_toNat i
  have hop := (opOfInstr i).isLt
  have hbitA := (bitOfKind i.opA.kind).isLt
  have hbitB := (bitOfKind i.opB.kind).isLt
  rw [eq_cmdA_iff, eq_cmdB_iff, cmdRsv_eq_zero_iff, cmdOp_eq_iff]
  constructor
  · rintro rfl
    exact ⟨⟨by omega, rfl⟩, ⟨by omega, rfl⟩, by omega, by omega⟩
  · rintro ⟨⟨hkA, hvA⟩, ⟨hkB, hvB⟩, hrsv, hopc⟩
    have hcmd : (encode i).cmd = c.cmd := BitVec.eq_of_toNat_eq (by omega)
    cases c
    exact (Command.mk.injEq ..).mpr ⟨hcmd, hvA, hvB⟩

end Fields

/-! ## The decoder inverts the encoder (R50) -/

section Decoder

variable {w : Nat}

/-- The `op` value of a command selects it. -/
theorem instrOfOp_opOfInstr (i : Instr w) : instrOfOp (opOfInstr i).toNat i.opA i.opB = some i := by cases i <;> rfl

theorem opOfInstr_lt (i : Instr w) : (opOfInstr i).toNat < 12 := by cases i <;> simp [opOfInstr]

/-- The decoder reads exactly the well-formed commands, each from its own triple. -/
theorem decode_eq_ok_iff (c : Command w) (i : Instr w) : decode c = .ok i ↔ encode i = c ∧ i.wellFormed = true := by
  rw [encode_eq_iff]
  constructor
  · intro h
    obtain ⟨hA, hB⟩ := decode_operands h
    obtain ⟨hrsv, hop⟩ := fields_of_decode h
    refine ⟨⟨hA, hB, hrsv, hop⟩, ?_⟩
    rcases decode_cases c with ⟨-, hd⟩ | ⟨-, j, hj, ⟨-, hd⟩ | ⟨hkA, hkB, hd⟩⟩ <;> rw [h] at hd <;> cases hd
    rw [wellFormed_of_kindMeets hj, hkA, hkB]
    rfl
  · rintro ⟨⟨hA, hB, hrsv, hop⟩, hwf⟩
    have hsel : instrOfOp (cmdOp c).toNat (cmdA c) (cmdB c) = some i := by
      rw [hop, ← hA, ← hB, instrOfOp_opOfInstr]
    rw [wellFormed_of_kindMeets hsel, Bool.and_eq_true] at hwf
    simp [decode, hrsv, hsel, hwf]

/-- A word with a reserved bit or a reserved `op` is rejected before its kinds are looked at (R46, R47). -/
theorem decode_reserved {c : Command w} (h : 12 ≤ c.cmd.toNat % 16 ∨ c.cmd.toNat / 64 ≠ 0) :
    decode c = .error .illegalCmd := by
  rcases decode_cases c with ⟨-, hd⟩ | ⟨hrsv, i, hi, -⟩
  · exact hd
  · have hop := op_of_instrOfOp hi
    have hlt := opOfInstr_lt i
    rw [cmdOp_toNat] at hop
    rw [cmdRsv_eq_zero_iff] at hrsv
    omega

end Decoder

/-- Settles O18: the triple of a well-formed command is read as that command. -/
theorem encodedCommandsDecodeToThemselves : Obligations.EncodedCommandsDecodeToThemselves := by
  unfold Obligations.EncodedCommandsDecodeToThemselves
  exact fun w i hwf => (decode_eq_ok_iff (encode i) i).mpr ⟨rfl, hwf⟩

/-- Settles O19: the converse, by the same equivalence. -/
theorem decodedCommandsEncodeToTheirTriple : Obligations.DecodedCommandsEncodeToTheirTriple := by
  unfold Obligations.DecodedCommandsEncodeToTheirTriple
  exact fun w c i h => ((decode_eq_ok_iff c i).mp h).symm

/-- Settles O15: the decoder rejects the word, and a rejection is answered by `raise`. -/
theorem reservedWordsAreIllegal : Obligations.ReservedWordsAreIllegal := by
  unfold Obligations.ReservedWordsAreIllegal
  exact fun c s h => ⟨decode_reserved h, acceptCommand_of_reject (decode_reserved h) s⟩

/-! ## The opcode table (R50) -/

section Table

variable {w : Nat}

/-- The mask that every row's mask covers keeps `rsv` and `op` (R38). -/
theorem and_0xCF_toNat (x : BitVec 8) : (x &&& 0xCF).toNat = 64 * (x.toNat / 64) + x.toNat % 16 := by
  revert x
  decide

/-- Under its mask a command's row fixes the reserved bits and the `op` value. -/
theorem fields_of_tableRow {c : Command w} {i : Instr w} (h : c.cmd &&& tableMask i = tableMatch i) :
    cmdRsv c = 0 ∧ cmdOp c = opOfInstr i := by
  have hmask : tableMask i &&& 0xCF = 0xCF := by cases i <;> simp [tableMask]
  have hmatch : tableMatch i &&& 0xCF = (opOfInstr i).setWidth 8 := by cases i <;> simp [tableMatch, opOfInstr]
  have hfixed : c.cmd &&& 0xCF = (opOfInstr i).setWidth 8 := by rw [← hmatch, ← h, BitVec.and_assoc, hmask]
  have hnat := and_0xCF_toNat c.cmd
  have hop := opOfInstr_lt i
  rw [hfixed, BitVec.toNat_setWidth] at hnat
  rw [cmdRsv_eq_zero_iff, cmdOp_eq_iff]
  omega

/-- The kinds a command's own word may have under its row are those R42 requires. -/
theorem wellFormed_iff_tableRow (i : Instr w) :
    i.wellFormed = true ↔ (encode i).cmd &&& tableMask i = tableMatch i := by
  change _ ↔ wordOf i.opA.kind i.opB.kind (opOfInstr i) &&& tableMask i = tableMatch i
  cases i with
  | norm a b | dist a b | add a b | subn a b | lt a b | le a b | gt a b | ge a b | eq a b | srstart a b | srnext a b
  | srrestart a b =>
    dsimp only [Instr.wellFormed, Instr.opA, Instr.opB, opOfInstr, tableMask, tableMatch]
    cases a.kind <;> cases b.kind <;> decide

theorem decode_eq_ok_iff_tableRow (c : Command w) (i : Instr w) :
    decode c = .ok i ↔ i.opA = cmdA c ∧ i.opB = cmdB c ∧ c.cmd &&& tableMask i = tableMatch i := by
  rw [decode_eq_ok_iff, wellFormed_iff_tableRow]
  constructor
  · rintro ⟨rfl, hrow⟩
    obtain ⟨hA, hB, -, -⟩ := (encode_eq_iff (encode i) i).mp rfl
    exact ⟨hA, hB, hrow⟩
  · rintro ⟨hA, hB, hrow⟩
    obtain rfl := (encode_eq_iff c i).mpr ⟨hA, hB, fields_of_tableRow hrow⟩
    exact ⟨rfl, hrow⟩

theorem kindOfBit_extractLsb' (x : BitVec 8) (k : Nat) :
    kindOfBit (x.extractLsb' k 1) = if x.getLsbD k then .int else .seq := by
  have hbit : x.extractLsb' k 1 = BitVec.ofBool (x.getLsbD k) := by
    ext j hj
    simp [show j = 0 by omega]
  rw [hbit]
  cases x.getLsbD k <;> rfl

end Table

/-- Settles O17: the kind tags are the bits 4 and 5, and the row's mask covers the rest of the word. -/
theorem decoderFollowsTheOpcodeTable : Obligations.DecoderFollowsTheOpcodeTable := by
  unfold Obligations.DecoderFollowsTheOpcodeTable
  intro w c i
  rw [decode_eq_ok_iff_tableRow, cmdA, cmdB, kindOfBit_extractLsb', kindOfBit_extractLsb']

/-! ## Operands that count only in part (R43, R45) -/

/-- What `NORM` does depends on the word only through operand A, an `INT` of value `a_val`. -/
theorem acceptCommand_norm {c : Command} (hc : c.cmd &&& 0xDF = 0x10) (s : State) :
    acceptCommand c s = .next (respond .seq (seqBits (seqOf c.aVal)) false s) := by
  have hd : decode c = .ok (.norm (cmdA c) (cmdB c)) := (decode_eq_ok_iff_tableRow c _).mpr ⟨rfl, rfl, hc⟩
  have hkind : (cmdA c).kind = .int := of_decide_eq_true ((decode_eq_ok_iff c _).mp hd).2
  rw [acceptCommand_of_decode hd, exec_norm, withInt, readInt_ok hkind]
  simp only [modSeq_intOf eight_le_intW]
  rfl

theorem acceptCommand_srrestart {c : Command} (hc : c.cmd &&& 0xCF = 0x0B) (s : State) :
    acceptCommand c s = .next (withRange s fun t => respond .none 0 false (setCur t.srStart t)) := by
  have hd : decode c = .ok (.srrestart (cmdA c) (cmdB c)) := (decode_eq_ok_iff_tableRow c _).mpr ⟨rfl, rfl, hc⟩
  rw [acceptCommand_of_decode hd, exec_srrestart]

/-- Settles O14: what each of the three commands does is a function of the operands it uses. -/
theorem unusedOperandsChangeNothing : Obligations.UnusedOperandsChangeNothing := by
  unfold Obligations.UnusedOperandsChangeNothing
  refine fun c d s => ⟨fun hc hd ha => ?_, fun hc hd => ?_, fun hc hd => ?_⟩
  · rw [acceptCommand_norm hc, acceptCommand_norm hd, ha]
  · rw [acceptCommand_srnext hc, acceptCommand_srnext hd]
  · rw [acceptCommand_srrestart hc, acceptCommand_srrestart hd]

/-- A step backward depends on the count only modulo 256 (R57). -/
theorem stepBackward_congr (a : SeqNum) {m n : Int} (h : modSeq m = modSeq n) : stepBackward a m = stepBackward a n := by
  have hneg : modSeq (-m) = modSeq (-n) := by
    simp only [modSeq, BitVec.ofInt_neg] at h ⊢
    rw [h]
  rw [stepBackward_eq_stepForward_neg, stepBackward_eq_stepForward_neg, stepForward_congr a hneg]

/-- A command that moves a sequence number by a count answers alike on two counts by which it moves alike. -/
theorem withSeqInt_count_congr {w : Nat} (hw : 8 ≤ w) {v v' : Word w} {move : SeqNum → Int → SeqNum}
    (h : ∀ x, move x (intOf v) = move x (intOf v')) (a : Operand w) (s : State w) :
    withSeqInt a ⟨.int, v⟩ s (fun x n => respond .seq (seqBits (move x n)) false s) =
      withSeqInt a ⟨.int, v'⟩ s (fun x n => respond .seq (seqBits (move x n)) false s) := by
  rcases withSeqInt_cases hw a ⟨.int, v⟩ s fun x n => respond .seq (seqBits (move x n)) false s with
    ⟨ha, -, hrun⟩ | ⟨hkind, hrun⟩ | ⟨ha, -, hn, hrun⟩ <;> rw [hrun, withSeqInt]
  · simp only [readSeqInt_ok hw ha, h]
  · rw [readSeqInt_typeError (b := ⟨.int, v'⟩) hkind]
  · rw [readSeqInt_notNormalized hw ha rfl hn]

/-- Settles O13: the low 8 bits of a count are what `NORM`, `ADD` and `SUBN` compute with. -/
theorem intOperandsCountOnlyModulo256 : Obligations.IntOperandsCountOnlyModulo256 := by
  unfold Obligations.IntOperandsCountOnlyModulo256
  refine ⟨fun v => ⟨intOf_emod eight_le_intW v, by rw [BitVec.toNat_ofNat]; rfl⟩, fun v v' a b s h => ?_⟩
  have hmod : modSeq (intOf v) = modSeq (intOf v') := by
    rw [modSeq_intOf eight_le_intW, modSeq_intOf eight_le_intW]
    exact BitVec.eq_of_toNat_eq (by rw [seqOf_toNat, seqOf_toNat, h])
  refine ⟨?_, ?_, ?_⟩
  · rw [exec_norm, exec_norm, withInt, withInt, readInt_ok rfl, readInt_ok rfl]
    simp only [hmod]
  · rw [exec_add, exec_add, withSeqInt_count_congr eight_le_intW (stepForward_congr · hmod)]
  · rw [exec_subn, exec_subn, withSeqInt_count_congr eight_le_intW (stepBackward_congr · hmod)]

/-! ## The request port (R39) -/

/-- An accepted command answers a valid response and consumes no edge but its own. -/
theorem acceptCommand_answers (c : Command) (s : State) :
    ∃ t, acceptCommand c s = .next t ∧ t.rsp.valid = true ∧ t.inputs = s.inputs := by
  rcases acceptCommand_cases c s with ⟨i, -, h⟩ | ⟨e, -, h⟩
  · obtain ⟨t, ht, hend⟩ := exec_cases i s
    exact ⟨t, h.trans ht, rsp_valid_of_ending hend, (exec_own_fields ht).1⟩
  · exact ⟨raise e s, h, rfl, rfl⟩

theorem step_next (s : State) : ∃ t, step s = .next t := by
  rcases step_cases s with ⟨-, h⟩ | ⟨-, -, h⟩ | ⟨-, -, h⟩
  · exact ⟨_, h⟩
  · rw [h]
    exact acceptCommand_next _ _
  · exact ⟨_, h⟩

/-- Settles O11: the two edges without a reset. -/
theorem portAcceptsExactlyValidRequests : Obligations.PortAcceptsExactlyValidRequests := by
  unfold Obligations.PortAcceptsExactlyValidRequests
  intro s e es hin hrst
  obtain ⟨hedge, hdrop⟩ := currentEdge_of_inputs hin
  have hcases := step_cases s
  rw [hedge, hdrop, hrst] at hcases
  rcases hcases with ⟨hr, -⟩ | ⟨-, hvalid, h⟩ | ⟨-, hvalid, h⟩
  · cases hr
  · refine ⟨fun _ => ⟨h, ?_⟩, fun hv => by simp [hvalid] at hv⟩
    rw [h]
    exact acceptCommand_answers e.command { s with inputs := es }
  · exact ⟨fun hv => by simp [hvalid] at hv, fun _ => ⟨_, rfl, h⟩⟩

/-- Settles O58: no step stops, so by induction on its length no run does. -/
theorem noRunEverStops : Obligations.NoRunEverStops := by
  unfold Obligations.NoRunEverStops
  intro n
  induction n with
  | zero => exact fun s => ⟨s, (runs_zero s s).mpr rfl⟩
  | succ n ih =>
    intro s
    obtain ⟨u, hu⟩ := step_next s
    obtain ⟨t, ht⟩ := ih u
    exact ⟨t, (runs_succ n s t).mpr ⟨u, hu, ht⟩⟩

/-! ## The assembler (R51 to R53) -/

section Assembler

variable {w : Nat}

/-- A core mnemonic names the command its `op` number selects. -/
theorem instrOfMnemonic_eq_instrOfOp {m : Mnemonic} {op : Nat} (h : opNumber m = some op) (a b : Operand w) :
    instrOfMnemonic m a b = instrOfOp op a b := by
  cases m <;> cases h <;> rfl

theorem expandLine_core {m : Mnemonic} {op : Nat} (h : opNumber m = some op) (a b : Option AsmOperand) :
    expandLine ⟨m, a, b⟩ = some ⟨m, a, b⟩ := by
  cases m <;> cases h <;> rfl

/-- A written operand whose number the port carries goes onto the port with its written kind and value. -/
theorem optionalOperand_of_carried {o : Option AsmOperand} (h : Carried w o) :
    ∃ p, optionalOperand w o = some p ∧ (bitOfKind p.kind).toNat = writtenKind o ∧ p.val = writtenValue o := by
  match o, h with
  | none, _ => exact ⟨omittedOperand, rfl, rfl, rfl⟩
  | some (.seq n), h => exact ⟨⟨.seq, BitVec.ofNat w n⟩, if_pos h, rfl, rfl⟩
  | some (.int n), h => exact ⟨⟨.int, BitVec.ofInt w n⟩, if_pos h, rfl, rfl⟩

/-- What the assembler writes for a command: its `op`, its kind bits and values, and the operands it ignores at 0 (R53). -/
theorem encode_canonical_fields {i : Instr w} {op : Nat} (hop : op = (opOfInstr i).toNat) :
    (encode (canonical i)).cmd.toNat =
      op + (if op ≤ 9 then 16 * (bitOfKind i.opA.kind).toNat else 0) +
        (if 1 ≤ op ∧ op ≤ 9 then 32 * (bitOfKind i.opB.kind).toNat else 0) ∧
    (encode (canonical i)).aVal = (if op ≤ 9 then i.opA.val else 0) ∧
    (encode (canonical i)).bVal = (if 1 ≤ op ∧ op ≤ 9 then i.opB.val else 0) := by
  rw [encode_cmd_toNat, hop]
  cases i <;> exact ⟨rfl, rfl, rfl⟩

/-- Everything a line assembles to is the canonical triple of some command. -/
theorem canonical_of_assembleLine {l : AsmLine} {c : Command w} (h : assembleLine l w = some c) :
    ∃ i : Instr w, c = encode (canonical i) := by
  unfold assembleLine at h
  split at h
  · cases h
  · split at h
    · obtain ⟨i, -, hi⟩ := Option.map_eq_some_iff.mp h
      exact ⟨i, hi.symm⟩
    · cases h

/-- A core line assembles to the canonical triple of the command its `op` number selects, at the operands it is written with. -/
theorem assembleLine_core {m : Mnemonic} {op : Nat} (hop : opNumber m = some op) {a b : Option AsmOperand} {x y : Operand w}
    (ha : optionalOperand w a = some x) (hb : optionalOperand w b = some y) :
    ∃ i, instrOfOp op x y = some i ∧ assembleLine ⟨m, a, b⟩ w = some (encode (canonical i)) := by
  obtain ⟨i, hi⟩ : ∃ i, instrOfOp op x y = some i := by cases m <;> cases hop <;> exact ⟨_, rfl⟩
  refine ⟨i, hi, ?_⟩
  simp only [assembleLine, expandLine_core hop, ha, hb, instrOfMnemonic_eq_instrOfOp hop, hi, Option.map_some]

end Assembler

/-- Settles O21: the canonical triple of the command the mnemonic names, field by field. -/
theorem assemblerEncodesWhatIsWritten : Obligations.AssemblerEncodesWhatIsWritten := by
  unfold Obligations.AssemblerEncodesWhatIsWritten
  refine ⟨fun w m op a b hop ha hb => ?_, by decide, by decide⟩
  obtain ⟨x, hx, hkindX, hvalX⟩ := optionalOperand_of_carried ha
  obtain ⟨y, hy, hkindY, hvalY⟩ := optionalOperand_of_carried hb
  obtain ⟨i, hi, hline⟩ := assembleLine_core hop hx hy
  obtain ⟨rfl, rfl⟩ := instrOfOp_operands hi
  obtain ⟨hcmd, haVal, hbVal⟩ := encode_canonical_fields (op_of_instrOfOp hi)
  rw [hkindX, hkindY] at hcmd
  rw [hvalX] at haVal
  rw [hvalY] at hbVal
  rw [hline, ← hcmd, ← haVal, ← hbVal, BitVec.ofNat_toNat, BitVec.setWidth_eq]

/-- Settles O23: a line assembles only to canonical triples, whose fields follow from the `op` alone. -/
theorem assemblerClearsIgnoredBits : Obligations.AssemblerClearsIgnoredBits := by
  unfold Obligations.AssemblerClearsIgnoredBits
  intro w l c h
  obtain ⟨i, rfl⟩ := canonical_of_assembleLine h
  obtain ⟨op, hop⟩ : ∃ op, op = (opOfInstr i).toNat := ⟨_, rfl⟩
  obtain ⟨hcmd, haVal, hbVal⟩ := encode_canonical_fields hop
  have hlt := opOfInstr_lt i
  have hbitA := (bitOfKind i.opA.kind).isLt
  have hbitB := (bitOfKind i.opB.kind).isLt
  have hfields : (encode (canonical i)).cmd.toNat / 64 = 0 ∧ (encode (canonical i)).cmd.toNat % 16 = op := by
    split_ifs at hcmd <;> omega
  obtain ⟨hrsv, hopField⟩ := hfields
  rw [hopField]
  refine ⟨hrsv, hop ▸ hlt, fun hnorm => ?_, fun hnone => ?_⟩
  · have hb : ¬(1 ≤ op ∧ op ≤ 9) := by omega
    rw [if_pos (by omega), if_neg hb] at hcmd
    exact ⟨by omega, hbVal.trans (if_neg hb)⟩
  · have ha : ¬op ≤ 9 := by omega
    have hb : ¬(1 ≤ op ∧ op ≤ 9) := by omega
    rw [if_neg ha, if_neg hb] at hcmd
    exact ⟨by omega, haVal.trans (if_neg ha), hbVal.trans (if_neg hb)⟩

/-! ## Single words and lines -/

/-- Settles O16: a count over the 256 words, by running the decoder on each. -/
theorem decoderCensusOfAllWords : Obligations.DecoderCensusOfAllWords :=
  ⟨rfl, rfl, rfl⟩

/-- Settles O20: seven closed words. -/
theorem writtenWordsDecodeAsTheSpecSays : Obligations.WrittenWordsDecodeAsTheSpecSays := by
  unfold Obligations.WrittenWordsDecodeAsTheSpecSays
  decide

/-- Settles O22: the five rows of `expandLine`. -/
theorem pseudoInstructionsExpand : Obligations.PseudoInstructionsExpand :=
  fun _ _ _ _ => ⟨rfl, rfl, rfl, rfl, rfl⟩

end Sys2Proof.EncodingRules
end

section
/-! # Construction, distance and stepping (40_construct_arith.md)

Each command reads its operands and answers one value, so an obligation about responses becomes one about `modSeq`,
`stepForward`, `stepBackward` and `distance` (the `valueOf_` lemmas). Those are then compared as integers modulo 256, with the two
halves of the circle told apart by `signed8_cases`. -/

namespace Sys2Proof.ConstructRules

open Sys2Proof.Machine Sys2Proof.Safety Sys2Proof.Scope Sys2Proof.EncodingRules

/-! ## The values as integers -/

section Values

/-- R8: the two halves of the circle. -/
theorem signed8_cases (x : SeqNum) :
    (x.toNat ≤ 127 ∧ signed8 x = x.toNat) ∨ (128 ≤ x.toNat ∧ signed8 x = x.toNat - 256) := by
  unfold signed8
  split <;> omega

theorem signed8_modSeq {n : Int} (hlo : -128 ≤ n) (hhi : n < 128) : signed8 (modSeq n) = n := by
  rw [signed8_eq_toInt, modSeq, BitVec.toInt_ofInt_eq_self (by decide) (by omega) (by omega)]

theorem modSeq_natCast_toNat (x : SeqNum) : modSeq x.toNat = x := by
  rw [modSeq, BitVec.ofInt_natCast, BitVec.ofNat_toNat, BitVec.setWidth_eq]

theorem modSeq_congr {m n : Int} (h : m % 256 = n % 256) : modSeq m = modSeq n := by
  apply BitVec.eq_of_toNat_eq
  have hm := modSeq_toNat m
  have hn := modSeq_toNat n
  omega

/-- R61: the distance is congruent to the modular difference. -/
theorem distance_emod (x y : SeqNum) : distance x y % 256 = ((x.toNat : Int) - y.toNat) % 256 := by
  have hx := signed8_cases x
  have hy := signed8_cases y
  rw [distance]
  omega

theorem distance_neg (x y : SeqNum) : distance x y = -distance y x := by
  rw [distance, distance, Int.neg_sub]

theorem distance_eq_zero_iff (x y : SeqNum) : distance x y = 0 ↔ x = y := by
  rw [distance, Int.sub_eq_zero]
  exact ⟨signed8_injective, congrArg signed8⟩

/-- R55: every integer in [-255, 255] is a distance, of its two halves. -/
theorem exists_distance_eq {d : Int} (hlo : -255 ≤ d) (hhi : d ≤ 255) : ∃ x y, distance x y = d := by
  refine ⟨modSeq (d / 2), modSeq (d / 2 - d), ?_⟩
  rw [distance, signed8_modSeq (by omega) (by omega), signed8_modSeq (by omega) (by omega)]
  omega

theorem stepForward_stepForward (x : SeqNum) (m n : Int) : stepForward (stepForward x m) n = stepForward x (m + n) := by
  rw [stepForward, stepForward_toNat]
  exact modSeq_congr (by omega)

theorem stepForward_zero_right (x : SeqNum) : stepForward x 0 = x := by
  rw [stepForward, Int.add_zero, modSeq_natCast_toNat]

theorem stepBackward_stepForward (x : SeqNum) (n : Int) : stepBackward (stepForward x n) n = x := by
  rw [stepBackward_eq_stepForward_neg, stepForward_stepForward, Int.add_right_neg, stepForward_zero_right]

theorem stepForward_stepBackward (x : SeqNum) (n : Int) : stepForward (stepBackward x n) n = x := by
  rw [stepBackward_eq_stepForward_neg, stepForward_stepForward, Int.add_left_neg, stepForward_zero_right]

theorem stepForward_zero_left (n : Int) : stepForward 0 n = modSeq n := by
  simp [stepForward]

/-- R61: the sequence number of a distance is a step backward. -/
theorem modSeq_distance (x y : SeqNum) : modSeq (distance x y) = stepBackward x y.toNat :=
  modSeq_congr (distance_emod x y)

/-- R57: a step backward by way of the distance. -/
theorem stepBackward_toNat_of_distance (x : SeqNum) (n : Int) :
    ((stepBackward x n).toNat : Int) = distance x (modSeq n) % 256 := by
  rw [stepBackward_toNat, distance_emod, modSeq_toNat]
  omega

/-- R64: a step forward that stays below 128 is its own distance; one that crosses 127/128 loses a turn. -/
theorem distance_stepForward_self (x : SeqNum) {k : Nat} (hk : k ≤ 255) :
    distance (stepForward x k) x = if signed8 x + k ≤ 127 then (k : Int) else (k : Int) - 256 := by
  have hstep := stepForward_toNat x k
  have hx := signed8_cases x
  have hy := signed8_cases (stepForward x k)
  rw [distance]
  split <;> omega

/-- R63: the circular distance is the modular difference in [-128, 128). -/
theorem circular_bounds (x y : SeqNum) :
    -128 ≤ circular x y ∧ circular x y < 128 ∧ (circular x y - ((x.toNat : Int) - y.toNat)) % 256 = 0 := by
  obtain ⟨hlo, hhi⟩ := signed8_bounds (x - y)
  have hcases := signed8_cases (x - y)
  rw [BitVec.toNat_sub] at hcases
  rw [circular, ← signed8_eq_toInt]
  omega

/-- R63: on one half of the circle the distance and the circular distance agree. -/
theorem opposite_of_distance_ne_circular {x y : SeqNum} (h : distance x y ≠ circular x y) :
    (x.toNat ≤ 127 ∧ 128 ≤ y.toNat) ∨ (128 ≤ x.toNat ∧ y.toNat ≤ 127) := by
  have hcirc := circular_bounds x y
  have hx := signed8_cases x
  have hy := signed8_cases y
  rw [distance] at h
  omega

end Values

/-! ## The values on the ports -/

section Ports

variable {w : Nat}

theorem seqBits_modSeq (n : Int) : (seqBits (modSeq n) : BitVec w) = BitVec.ofInt w (n % 256) := by
  rw [← modSeq_toNat, BitVec.ofInt_natCast, ← seqOperand_val]
  rfl

theorem distBits_distance (hw : 9 ≤ w) (x y : SeqNum) : (distBits (distance x y) : BitVec w) = BitVec.ofInt w (distance x y) := by
  obtain ⟨hlo, hhi⟩ := distance_bounds x y
  apply BitVec.eq_of_toInt_eq
  rw [distBits_toInt hw, toInt_ofInt_of_nine_le hw (by omega) (by omega)]

theorem seqOf_toNat_of_lt {v : BitVec w} (h : v.toNat < 256) : (seqOf v).toNat = v.toNat := by
  rw [seqOf_toNat, Nat.mod_eq_of_lt h]

theorem signed8_seqOf {v : BitVec w} (h : v.toNat < 256) : signed8 (seqOf v) = signedRep v.toNat := by
  rw [← signedRep_toNat, seqOf_toNat_of_lt h]

/-- An integer is read back from a port up to a multiple of 256 (R43). -/
theorem intOf_ofInt_emod (hw : 8 ≤ w) (n : Int) : intOf (BitVec.ofInt w n) % 256 = n % 256 := by
  have hdvd : (256 : Int) ∣ ((2 ^ w : Nat) : Int) := Int.natCast_dvd_natCast.mpr (Nat.pow_dvd_pow 2 hw)
  rw [intOf, BitVec.toInt_ofInt, ← Int.emod_emod_of_dvd _ hdvd, Int.bmod_emod, Int.emod_emod_of_dvd _ hdvd]

theorem modSeq_intOf_ofInt (hw : 8 ≤ w) (n : Int) : modSeq (intOf (BitVec.ofInt w n)) = modSeq n :=
  modSeq_congr (intOf_ofInt_emod hw n)

theorem readableSeq_seqOperand (hw : 8 ≤ w) (x : SeqNum) : ReadableSeq (seqOperand x : Operand w) :=
  ⟨rfl, by rw [seqOperand_val, seqBits_toNat hw]; exact x.isLt⟩

theorem seqOf_seqOperand (hw : 8 ≤ w) (x : SeqNum) : seqOf (seqOperand x : Operand w).val = x := by
  rw [seqOperand_val, seqOf_seqBits hw]

theorem feedBack_seqBits (x : SeqNum) : feedBack (seqBits x : Word w) = seqOperand x := by
  rw [← seqOperand_val]
  rfl

end Ports

/-! ## What reading operands leaves to a command -/

section Reads

variable {w : Nat} (hw : 8 ≤ w) {a b : Operand w} {s : State w}

theorem withInt_int (ha : a.kind = .int) (f : Int → State w) : withInt a s f = f (intOf a.val) := by
  rw [withInt, readInt_ok ha]

theorem withInt_seq (ha : a.kind = .seq) (f : Int → State w) : withInt a s f = failed s 2 := by
  rw [withInt, readInt_typeError ha]
  rfl

theorem withSeqSeq_typeError (h : a.kind = .int ∨ b.kind = .int) (f : SeqNum → SeqNum → State w) :
    withSeqSeq a b s f = failed s 2 := by
  rw [withSeqSeq, readSeqSeq_typeError h]
  rfl

theorem withSeqInt_typeError (h : a.kind = .int ∨ b.kind = .seq) (f : SeqNum → Int → State w) :
    withSeqInt a b s f = failed s 2 := by
  rw [withSeqInt, readSeqInt_typeError h]
  rfl

include hw

theorem withSeqSeq_ok (ha : ReadableSeq a) (hb : ReadableSeq b) (f : SeqNum → SeqNum → State w) :
    withSeqSeq a b s f = f (seqOf a.val) (seqOf b.val) := by
  rw [withSeqSeq, readSeqSeq_ok hw ha hb]

theorem withSeqSeq_notNormalized (ha : a.kind = .seq) (hb : b.kind = .seq) (h : 256 ≤ a.val.toNat ∨ 256 ≤ b.val.toNat)
    (f : SeqNum → SeqNum → State w) : withSeqSeq a b s f = failed s 3 := by
  rw [withSeqSeq, readSeqSeq_notNormalized hw ha hb h]
  rfl

theorem withSeqInt_ok (ha : ReadableSeq a) (hb : b.kind = .int) (f : SeqNum → Int → State w) :
    withSeqInt a b s f = f (seqOf a.val) (intOf b.val) := by
  rw [withSeqInt, readSeqInt_ok hw ha hb]

theorem withSeqInt_notNormalized (ha : a.kind = .seq) (hb : b.kind = .int) (h : 256 ≤ a.val.toNat)
    (f : SeqNum → Int → State w) : withSeqInt a b s f = failed s 3 := by
  rw [withSeqInt, readSeqInt_notNormalized hw ha hb h]
  rfl

end Reads

section Exec

variable {a b : Operand}

theorem exec_norm_int (ha : a.kind = .int) (b : Operand) (s : State) :
    exec (.norm a b) s = .next (respond .seq (seqBits (modSeq (intOf a.val))) false s) := by
  rw [exec_norm, withInt_int ha]

theorem exec_add_ok (ha : ReadableSeq a) (hb : b.kind = .int) (s : State) :
    exec (.add a b) s = .next (respond .seq (seqBits (stepForward (seqOf a.val) (intOf b.val))) false s) := by
  rw [exec_add, withSeqInt_ok eight_le_intW ha hb]

theorem exec_subn_ok (ha : ReadableSeq a) (hb : b.kind = .int) (s : State) :
    exec (.subn a b) s = .next (respond .seq (seqBits (stepBackward (seqOf a.val) (intOf b.val))) false s) := by
  rw [exec_subn, withSeqInt_ok eight_le_intW ha hb]

end Exec

/-! ## The words of one row of the opcode table -/

section Rows

variable {w : Nat} {row : Operand w → Operand w → Instr w} {key : BitVec 8}

/-- The decoder reads some command of a row exactly from the words that match the row under its mask (R50). -/
theorem exists_decode_iff {mask : BitVec 8} (hop : ∀ a b, (row a b).opA = a ∧ (row a b).opB = b)
    (hrow : ∀ a b, tableMask (row a b) = mask ∧ tableMatch (row a b) = key) (c : Command w) :
    (∃ a b, decode c = .ok (row a b)) ↔ c.cmd &&& mask = key := by
  simp only [decode_eq_ok_iff_tableRow, hop, hrow, exists_and_left, exists_eq_left]

/-- A row whose mask covers the whole word has one word. -/
theorem exists_decode_iff_eq (hop : ∀ a b, (row a b).opA = a ∧ (row a b).opB = b)
    (hrow : ∀ a b, tableMask (row a b) = 0xFF ∧ tableMatch (row a b) = key) (c : Command w) :
    (∃ a b, decode c = .ok (row a b)) ↔ c.cmd = key := by
  rw [exists_decode_iff hop hrow, show (0xFF : BitVec 8) = BitVec.allOnes 8 from rfl, BitVec.and_allOnes]

end Rows

/-! ## What the client reads -/

section Responses

theorem valueOf_of_exec {i : Instr} {s t : State} (h : exec i s = .next t) : valueOf i s = t.rsp.val := by
  rw [valueOf, responseOf, h]

theorem valueOf_dist (x y : SeqNum) (s : State) :
    valueOf (.dist (seqOperand x) (seqOperand y)) s = distBits (distance x y) :=
  valueOf_of_exec ((exec_eq_execAt _ s).trans (execAt_dist_seqOperand eight_le_intW x y s))

theorem valueOf_dist_toInt (x y : SeqNum) (s : State) :
    (valueOf (.dist (seqOperand x) (seqOperand y)) s).toInt = distance x y := by
  rw [valueOf_dist, distBits_toInt Config.nine_le_intW]

theorem valueOf_norm (v : Word) (b : Operand) (s : State) : valueOf (.norm ⟨.int, v⟩ b) s = seqBits (modSeq (intOf v)) :=
  valueOf_of_exec (exec_norm_int rfl b s)

theorem valueOf_add (x : SeqNum) (v : Word) (s : State) :
    valueOf (.add (seqOperand x) ⟨.int, v⟩) s = seqBits (stepForward x (intOf v)) := by
  have hexec := exec_add_ok (b := ⟨.int, v⟩) (readableSeq_seqOperand eight_le_intW x) rfl s
  rw [valueOf_of_exec hexec, respond_rsp, seqOf_seqOperand eight_le_intW]

theorem valueOf_subn (x : SeqNum) (v : Word) (s : State) :
    valueOf (.subn (seqOperand x) ⟨.int, v⟩) s = seqBits (stepBackward x (intOf v)) := by
  have hexec := exec_subn_ok (b := ⟨.int, v⟩) (readableSeq_seqOperand eight_le_intW x) rfl s
  rw [valueOf_of_exec hexec, respond_rsp, seqOf_seqOperand eight_le_intW]

/-! An integer is put on its port reduced modulo `2 ^ INT_W`, which the three commands do not notice. -/

theorem valueOf_norm_intOperand (n : Int) (b : Operand) (s : State) :
    valueOf (.norm (intOperand n) b) s = seqBits (modSeq n) := by
  rw [intOperand, valueOf_norm, modSeq_intOf_ofInt eight_le_intW]

theorem valueOf_add_intOperand (x : SeqNum) (n : Int) (s : State) :
    valueOf (.add (seqOperand x) (intOperand n)) s = seqBits (stepForward x n) := by
  rw [intOperand, valueOf_add, stepForward_congr x (modSeq_intOf_ofInt eight_le_intW n)]

theorem valueOf_subn_intOperand (x : SeqNum) (n : Int) (s : State) :
    valueOf (.subn (seqOperand x) (intOperand n)) s = seqBits (stepBackward x n) := by
  rw [intOperand, valueOf_subn, stepBackward_congr x (modSeq_intOf_ofInt eight_le_intW n)]

end Responses

/-! ## The pairs on which the distance is not circular (R63)

For a fixed `a` the far `b` form an interval, so each row of the 256 × 256 pairs is counted by its ends, and the rows add up to
triangular numbers. -/

section Count

theorem signedRep_cases {n : Nat} (h : n < 256) :
    (n ≤ 127 ∧ signedRep n = n) ∨ (128 ≤ n ∧ signedRep n = n - 256) := by
  have hn : (BitVec.ofNat 8 n).toNat = n := by rw [BitVec.toNat_ofNat, Nat.mod_eq_of_lt h]
  have hcases := signed8_cases (BitVec.ofNat 8 n)
  rwa [← signedRep_toNat, hn] at hcases

theorem length_filter_range_of_interval {p : Nat → Prop} [DecidablePred p] {n lo hi : Nat} (hn : hi ≤ n)
    (hp : ∀ b < n, p b ↔ lo ≤ b ∧ b < hi) : ((List.range n).filter fun b => decide (p b)).length = hi - lo := by
  have hcongr : ((List.range n).filter fun b => decide (p b)) =
      (List.range n).filter fun b => decide (b < hi) && decide (lo ≤ b) :=
    List.filter_congr fun b hb => by
      rw [← Bool.decide_and, decide_eq_decide, hp b (List.mem_range.mp hb), and_comm]
  rw [hcongr, ← List.filter_filter, ← List.Ico.zero_bot, List.Ico.filter_le, List.Ico.filter_lt, List.Ico.length]
  omega

theorem length_filter_128_le {a : Nat} (ha : a < 256) :
    ((List.range 256).filter fun b => decide (128 ≤ signedRep a - signedRep b)).length = if a < 128 then a + 1 else 0 := by
  have hcount := length_filter_range_of_interval (p := fun b => 128 ≤ signedRep a - signedRep b) (lo := 128)
    (hi := if a < 128 then 129 + a else 128) (n := 256) (by split <;> omega) fun b hb => by
      have hsa := signedRep_cases ha
      have hsb := signedRep_cases hb
      split <;> omega
  rw [hcount]
  split <;> omega

theorem length_filter_le_neg_129 {a : Nat} (ha : a < 256) :
    ((List.range 256).filter fun b => decide (signedRep a - signedRep b ≤ -129)).length =
      if a < 128 then 0 else 255 - a := by
  have hcount := length_filter_range_of_interval (p := fun b => signedRep a - signedRep b ≤ -129)
    (lo := if a < 128 then 128 else a - 127) (hi := 128) (n := 256) (by omega) fun b hb => by
      have hsa := signedRep_cases ha
      have hsb := signedRep_cases hb
      split <;> omega
  rw [hcount]
  split <;> omega

/-- A sum over the circle whose summands have a form of their own on each half. -/
theorem sum_map_range_256 {f low high : Nat → Nat} (hlow : ∀ a < 128, f a = low a) (hhigh : ∀ a < 128, f (128 + a) = high a) :
    ((List.range 256).map f).sum = ∑ a ∈ Finset.range 128, low a + ∑ a ∈ Finset.range 128, high a := by
  rw [← List.sum_toFinset f List.nodup_range, List.toFinset_range, Finset.sum_range_add f 128 128,
    Finset.sum_congr rfl fun a ha => hlow a (Finset.mem_range.mp ha),
    Finset.sum_congr rfl fun a ha => hhigh a (Finset.mem_range.mp ha)]

theorem sum_range_128 : ∑ a ∈ Finset.range 128, a = 8128 := by
  have := Finset.sum_range_id_mul_two 128
  omega

theorem pairs_with_distance_128_le : ((List.range 256).map fun a =>
    ((List.range 256).filter fun b => decide (128 ≤ signedRep a - signedRep b)).length).sum = 8256 := by
  rw [sum_map_range_256 (low := (· + 1)) (high := fun _ => 0)
    (fun a ha => by rw [length_filter_128_le (by omega), if_pos ha])
    (fun a ha => by rw [length_filter_128_le (by omega), if_neg (by omega)]), Finset.sum_add_distrib, sum_range_128]
  simp

theorem pairs_with_distance_le_neg_129 : ((List.range 256).map fun a =>
    ((List.range 256).filter fun b => decide (signedRep a - signedRep b ≤ -129)).length).sum = 8128 := by
  rw [sum_map_range_256 (low := fun _ => 0) (high := fun a => 128 - 1 - a)
    (fun a ha => by rw [length_filter_le_neg_129 (by omega), if_pos ha])
    (fun a ha => by rw [length_filter_le_neg_129 (by omega), if_neg (by omega)]; omega),
    Finset.sum_range_reflect (fun a => a), sum_range_128]
  simp

end Count

/-! ## The obligations about one command -/

/-- Settles O24: the low 8 bits of the integer are its remainder. -/
theorem normAnswersTheRemainder : Obligations.NormAnswersTheRemainder := by
  unfold Obligations.NormAnswersTheRemainder
  refine ⟨fun a b s ha => ?_, fun a b s ha => ?_, exists_decode_iff (fun _ _ => ⟨rfl, rfl⟩) fun _ _ => ⟨rfl, rfl⟩⟩
  · rw [exec_norm_int ha, seqBits_modSeq]
    rfl
  · rw [exec_norm, withInt_seq ha]

/-- Settles O25: the result port holds every distance, and every integer of the range is one. -/
theorem distAnswersTheSignedDifference : Obligations.DistAnswersTheSignedDifference := by
  unfold Obligations.DistAnswersTheSignedDifference
  refine ⟨fun a b s ha hb => ?_, fun a b s h => ?_, fun a b s ha hb h => ?_,
    exists_decode_iff_eq (fun _ _ => ⟨rfl, rfl⟩) fun _ _ => ⟨rfl, rfl⟩, fun d => ⟨fun ⟨hlo, hhi⟩ => ?_, fun ⟨x, y, h⟩ => ?_⟩⟩
  · rw [exec_dist, withSeqSeq_ok eight_le_intW ha hb, distBits_distance Config.nine_le_intW, distance, signed8_seqOf ha.2,
      signed8_seqOf hb.2]
    rfl
  · rw [exec_dist, withSeqSeq_typeError h]
  · rw [exec_dist, withSeqSeq_notNormalized eight_le_intW ha hb h]
  · obtain ⟨x, y, hxy⟩ := exists_distance_eq hlo hhi
    exact ⟨x, y, fun s => (valueOf_dist_toInt x y s).trans hxy⟩
  · rw [← h State.reset, valueOf_dist_toInt]
    exact distance_bounds x y

/-- Settles O26: the low 8 bits of the sum are its remainder. -/
theorem addStepsForward : Obligations.AddStepsForward := by
  unfold Obligations.AddStepsForward
  refine ⟨fun a b s ha hb => ?_, fun a b s h => ?_, fun a b s ha hb h => ?_,
    exists_decode_iff_eq (fun _ _ => ⟨rfl, rfl⟩) fun _ _ => ⟨rfl, rfl⟩⟩
  · rw [exec_add_ok ha hb, stepForward, seqBits_modSeq, seqOf_toNat_of_lt ha.2]
    rfl
  · rw [exec_add, withSeqInt_typeError h]
  · rw [exec_add, withSeqInt_notNormalized eight_le_intW ha hb h]

/-- Settles O27: as for `ADD`; the distance is congruent to the difference that the step reduces. -/
theorem subnStepsBackward : Obligations.SubnStepsBackward := by
  unfold Obligations.SubnStepsBackward
  refine ⟨fun a b s ha hb => ?_, fun a b s h => ?_, fun a b s ha hb h => ?_,
    exists_decode_iff_eq (fun _ _ => ⟨rfl, rfl⟩) fun _ _ => ⟨rfl, rfl⟩, fun x n s => ?_⟩
  · rw [exec_subn_ok ha hb, stepBackward, seqBits_modSeq, seqOf_toNat_of_lt ha.2]
    rfl
  · rw [exec_subn, withSeqInt_typeError h]
  · rw [exec_subn, withSeqInt_notNormalized eight_le_intW ha hb h]
  · have hn : (n % 256).toNat = (modSeq n).toNat := by rw [← modSeq_toNat, Int.toNat_natCast]
    rw [valueOf_subn_intOperand, seqBits_toNat eight_le_intW, stepBackward_toNat_of_distance, hn, signedRep_toNat,
      signedRep_toNat, distance]

/-! ## The obligations about several commands -/

/-- Settles O28: a step and its reverse cancel on the circle. -/
theorem stepsForwardAndBackCancel : Obligations.StepsForwardAndBackCancel := by
  unfold Obligations.StepsForwardAndBackCancel
  intro x v s u
  rw [valueOf_add, valueOf_subn, feedBack_seqBits, feedBack_seqBits, valueOf_subn, valueOf_add, stepBackward_stepForward,
    stepForward_stepBackward, seqOperand_val]
  exact ⟨rfl, rfl⟩

/-- Settles O29: steps add up, and count only modulo 256. -/
theorem stepsComposeAndArePeriodic : Obligations.StepsComposeAndArePeriodic := by
  unfold Obligations.StepsComposeAndArePeriodic
  intro x m n k s u
  simp only [valueOf_add_intOperand, valueOf_subn_intOperand, feedBack_seqBits]
  rw [stepForward_stepForward, stepForward_congr x (modSeq_add_256 n k), stepBackward_eq_stepForward_neg]
  exact ⟨rfl, rfl, rfl⟩

/-- Settles O30: `NORM` answers `modSeq`, the step from 0. -/
theorem normIsAStepFromZero : Obligations.NormIsAStepFromZero := by
  unfold Obligations.NormIsAStepFromZero
  intro x n k b s u
  simp only [valueOf_norm_intOperand, valueOf_add_intOperand]
  rw [modSeq_natCast_toNat, stepForward_zero_left, modSeq_add_256, seqOperand_val]
  exact ⟨rfl, rfl, rfl⟩

/-- Settles O31: the distance, read back as an integer, is reduced to a step backward. -/
theorem distanceIsCongruentToTheDifference : Obligations.DistanceIsCongruentToTheDifference := by
  unfold Obligations.DistanceIsCongruentToTheDifference
  intro x y b s u
  rw [valueOf_dist_toInt, valueOf_norm, intOf, valueOf_dist_toInt, valueOf_subn_intOperand, modSeq_distance]
  exact ⟨distance_emod x y, rfl⟩

/-- Settles O32: `signed8` is injective, and the distance is its difference. -/
theorem distanceIsAntisymmetricAndSeparates : Obligations.DistanceIsAntisymmetricAndSeparates := by
  unfold Obligations.DistanceIsAntisymmetricAndSeparates
  intro x y s u
  simp only [valueOf_dist_toInt]
  exact ⟨distance_neg x y, (distance_eq_zero_iff x x).mpr rfl, distance_eq_zero_iff x y⟩

/-- Settles O33: both distances are congruent to the difference, and they lie in [-255, 255] and [-128, 128). -/
theorem distanceAgainstCircularDistance : Obligations.DistanceAgainstCircularDistance := by
  unfold Obligations.DistanceAgainstCircularDistance
  refine ⟨fun x y s => ?_, pairs_with_distance_128_le, pairs_with_distance_le_neg_129⟩
  have hcirc := circular_bounds x y
  have hbounds := distance_bounds x y
  have hmod := distance_emod x y
  simp only [valueOf_dist_toInt, signedRep_toNat]
  exact ⟨rfl, hcirc, by omega, by omega, by omega, opposite_of_distance_ne_circular⟩

/-- Settles O34: the response of `ADD` fed back is the stepped sequence number. -/
theorem distanceAfterAForwardStep : Obligations.DistanceAfterAForwardStep := by
  unfold Obligations.DistanceAfterAForwardStep
  intro x k s u hk
  rw [valueOf_add_intOperand, feedBack_seqBits, valueOf_dist_toInt, signedRep_toNat, distance_stepForward_self x hk]

end Sys2Proof.ConstructRules
end

section
/-! # Ordering and equality (41_compare.md)

The five predicates are one operation, `comparison`, at five conditions on the distance. `exec` and the responses are therefore
settled once for a row of the table that runs `comparison p`, and what is left are facts about `distance` and the three ways it
can stand to the circular distance (`circular_cases`). -/

namespace Sys2Proof.CompareRules

open Sys2Proof.Machine Sys2Proof.Safety Sys2Proof.Scope Sys2Proof.EncodingRules Sys2Proof.ConstructRules

/-! ## The predicates as conditions on the distance -/

section Predicates

theorem seqEq_eq_decide_distance (x y : SeqNum) : seqEq x y = decide (distance x y = 0) :=
  decide_eq_decide.mpr (distance_eq_zero_iff x y).symm

theorem seqGt_swap (x y : SeqNum) : seqGt x y = seqLt y x := by
  rw [seqGt, seqLt, distance_neg y x, decide_eq_decide, Int.neg_neg_iff_pos]

theorem seqGe_swap (x y : SeqNum) : seqGe x y = seqLe y x := by
  rw [seqGe, seqLe, distance_neg y x, decide_eq_decide, Int.neg_nonpos_iff]

theorem seqLe_eq_seqLt_or_seqEq (x y : SeqNum) : seqLe x y = (seqLt x y || seqEq x y) := by
  rw [seqLe, seqLt, seqEq_eq_decide_distance, ← Bool.decide_or, decide_eq_decide, le_iff_lt_or_eq]

theorem seqGe_eq_seqGt_or_seqEq (x y : SeqNum) : seqGe x y = (seqGt x y || seqEq x y) := by
  rw [seqGe, seqGt, seqEq_eq_decide_distance, ← Bool.decide_or, decide_eq_decide, le_iff_lt_or_eq, eq_comm]

theorem seqLe_eq_not_seqGt (x y : SeqNum) : seqLe x y = !seqGt x y := by
  rw [seqLe, seqGt, ← decide_not, decide_eq_decide, not_lt]

/-- R73: exactly one of `LT`, `EQ` and `GT`. -/
theorem predicates_trichotomy (x y : SeqNum) :
    (seqLt x y = true ∧ seqEq x y = false ∧ seqGt x y = false) ∨
    (seqLt x y = false ∧ seqEq x y = true ∧ seqGt x y = false) ∨
    (seqLt x y = false ∧ seqEq x y = false ∧ seqGt x y = true) := by
  simp only [seqLt, seqGt, seqEq_eq_decide_distance, decide_eq_true_eq, decide_eq_false_iff_not]
  omega

/-- R72: 128 is the least number of the order. -/
theorem signed8_128_lt {x : SeqNum} (h : x ≠ 128) : signed8 128 < signed8 x :=
  lt_of_le_of_ne (signed8_bounds x).1 fun heq => h (signed8_injective heq.symm)

/-- R72: 127 is the greatest number of the order. -/
theorem signed8_lt_127 {x : SeqNum} (h : x ≠ 127) : signed8 x < signed8 127 :=
  lt_of_le_of_ne (signed8_bounds x).2 fun heq => h (signed8_injective heq)

/-- R72: the order climbs by 1 from each number but the greatest. -/
theorem signed8_add_one {x : SeqNum} (h : x ≠ 127) : signed8 (x + 1) = signed8 x + 1 := by
  have hx := signed8_cases x
  have hsucc := signed8_cases (x + 1)
  have hne : x.toNat ≠ 127 := fun heq => h (BitVec.eq_of_toNat_eq heq)
  rw [BitVec.toNat_add, show (1 : SeqNum).toNat = 1 from rfl] at hsucc
  omega

end Predicates

/-! ## The distance and the circular distance -/

section Circular

variable {x y : SeqNum}

/-- R75: the distance is the circular distance, or it is too far for one and the circular distance goes the other way round. -/
theorem circular_cases (x y : SeqNum) :
    (-128 ≤ distance x y ∧ distance x y ≤ 127 ∧ circular x y = distance x y) ∨
    (128 ≤ distance x y ∧ circular x y < 0) ∨
    (distance x y ≤ -129 ∧ 0 < circular x y) := by
  have hcirc := circular_bounds x y
  have hbounds := distance_bounds x y
  have hmod := distance_emod x y
  omega

/-- R75: outside [-128, 127] the two distances lie on opposite sides of 0. -/
theorem circular_opposite (h : ¬(-128 ≤ distance x y ∧ distance x y ≤ 127)) :
    (0 < distance x y ∧ circular x y < 0) ∨ (distance x y < 0 ∧ 0 < circular x y) := by
  have hcases := circular_cases x y
  omega

theorem sign_distance_eq_sign_circular_iff (x y : SeqNum) :
    (distance x y).sign = (circular x y).sign ↔ -128 ≤ distance x y ∧ distance x y ≤ 127 := by
  rcases circular_cases x y with ⟨hlo, hhi, hc⟩ | ⟨hd, hc⟩ | ⟨hd, hc⟩
  · simp [hc, hlo, hhi]
  · rw [Int.sign_eq_one_of_pos (by omega), Int.sign_eq_neg_one_of_neg hc]
    omega
  · rw [Int.sign_eq_neg_one_of_neg (by omega), Int.sign_eq_one_of_pos hc]
    omega

/-- R76: on one half of the circle the distance is at most 127. -/
theorem natAbs_distance_le_of_same_half (h : x.toNat ≤ 127 ↔ y.toNat ≤ 127) : (distance x y).natAbs ≤ 127 := by
  have hx := signed8_cases x
  have hy := signed8_cases y
  rw [distance]
  omega

/-- R76: across the boundary the distance is the length of the arc through 0. -/
theorem natAbs_distance_of_opposite_halves {lo hi : SeqNum} (h : (x = lo ∧ y = hi) ∨ (x = hi ∧ y = lo))
    (hlo : lo.toNat ≤ 127) (hhi : 128 ≤ hi.toNat) : (distance x y).natAbs = lo.toNat + 256 - hi.toNat := by
  have hl := signed8_cases lo
  have hh := signed8_cases hi
  have := hi.isLt
  rcases h with ⟨rfl, rfl⟩ | ⟨rfl, rfl⟩ <;> rw [distance] <;> omega

end Circular

/-! ## A predicate's result on the port -/

section Flag

variable {w : Nat}

@[simp] theorem boolBits_false : (boolBits false : BitVec w) = 0 := BitVec.setWidth_zero w 1

@[simp] theorem boolBits_true : (boolBits true : BitVec w) = 1 := by
  apply BitVec.eq_of_toNat_eq
  rw [boolBits, BitVec.toNat_setWidth, BitVec.ofNat_eq_ofNat, BitVec.toNat_ofNat]
  rfl

theorem boolBits_eq_ite (p : Bool) : (boolBits p : BitVec w) = if p then 1 else 0 := by
  cases p <;> simp

theorem boolBits_eq_one_iff (hw : 1 ≤ w) (p : Bool) : (boolBits p : BitVec w) = 1 ↔ p = true := by
  rw [← boolBits_true, ← BitVec.toNat_inj, boolBits_toNat hw, boolBits_toNat hw, Bool.toNat_true, Bool.toNat_eq_one]

theorem boolBits_or (p q : Bool) : (boolBits (p || q) : BitVec w) = boolBits p ||| boolBits q := by
  rw [boolBits, boolBits, boolBits, ← BitVec.setWidth_or, BitVec.ofBool_or_ofBool]

theorem boolBits_not (p : Bool) : (boolBits (!p) : BitVec w) = 1 - boolBits p := by
  cases p <;> simp

end Flag

/-! ## What a predicate answers -/

section Comparison

variable {p : SeqNum → SeqNum → Bool} {row : Operand → Operand → Instr}
  (hrow : ∀ a b s, exec (row a b) s = .next (comparison p a b s))
include hrow

theorem valueOf_comparison (x y : SeqNum) (s : State) : valueOf (row (seqOperand x) (seqOperand y)) s = boolBits (p x y) := by
  have hread (z : SeqNum) := readableSeq_seqOperand eight_le_intW z
  rw [valueOf_of_exec (hrow _ _ s), comparison, withSeqSeq_ok eight_le_intW (hread x) (hread y),
    seqOf_seqOperand eight_le_intW, seqOf_seqOperand eight_le_intW, respond_rsp]

/-- R67 to R71: a predicate is a condition on the difference of the signed representatives, and its row has one word. -/
theorem comparison_row_spec {cond : Int → Prop} [DecidablePred cond] {key : BitVec 8}
    (hp : ∀ x y, p x y = decide (cond (distance x y))) (hop : ∀ a b, (row a b).opA = a ∧ (row a b).opB = b)
    (hkey : ∀ a b, tableMask (row a b) = 0xFF ∧ tableMatch (row a b) = key) :
    (∀ (a b : Operand) (s : State), SeqOperand a → SeqOperand b → exec (row a b) s =
      .next (answered s 3 (if cond (signedRep a.val.toNat - signedRep b.val.toNat) then 1 else 0) false)) ∧
    (∀ (a b : Operand) (s : State), a.kind = .int ∨ b.kind = .int → exec (row a b) s = .next (failed s 2)) ∧
    (∀ (a b : Operand) (s : State), a.kind = .seq → b.kind = .seq → 256 ≤ a.val.toNat ∨ 256 ≤ b.val.toNat →
      exec (row a b) s = .next (failed s 3)) ∧
    (∀ c : Command, (∃ a b, decode c = .ok (row a b)) ↔ c.cmd = key) := by
  refine ⟨fun a b s ha hb => ?_, fun a b s h => ?_, fun a b s ha hb h => ?_, exists_decode_iff_eq hop hkey⟩
  · rw [hrow, comparison, withSeqSeq_ok eight_le_intW ha hb, boolBits_eq_ite, hp, distance, signed8_seqOf ha.2,
      signed8_seqOf hb.2]
    simp only [decide_eq_true_eq]
    rfl
  · rw [hrow, comparison, withSeqSeq_typeError h]
  · rw [hrow, comparison, withSeqSeq_notNormalized eight_le_intW ha hb h]

end Comparison

section Responses

variable (x y : SeqNum) (s : State)

theorem valueOf_lt : valueOf (.lt (seqOperand x) (seqOperand y)) s = boolBits (seqLt x y) :=
  valueOf_comparison (row := .lt) (fun _ _ _ => rfl) x y s

theorem valueOf_le : valueOf (.le (seqOperand x) (seqOperand y)) s = boolBits (seqLe x y) :=
  valueOf_comparison (row := .le) (fun _ _ _ => rfl) x y s

theorem valueOf_gt : valueOf (.gt (seqOperand x) (seqOperand y)) s = boolBits (seqGt x y) :=
  valueOf_comparison (row := .gt) (fun _ _ _ => rfl) x y s

theorem valueOf_ge : valueOf (.ge (seqOperand x) (seqOperand y)) s = boolBits (seqGe x y) :=
  valueOf_comparison (row := .ge) (fun _ _ _ => rfl) x y s

theorem valueOf_eq : valueOf (.eq (seqOperand x) (seqOperand y)) s = boolBits (seqEq x y) :=
  valueOf_comparison (row := .eq) (fun _ _ _ => rfl) x y s

theorem valueOf_lt_eq_one_iff : valueOf (.lt (seqOperand x) (seqOperand y)) s = 1 ↔ distance x y < 0 := by
  rw [valueOf_lt, boolBits_eq_one_iff (by decide), seqLt, decide_eq_true_iff]

theorem valueOf_le_eq_one_iff : valueOf (.le (seqOperand x) (seqOperand y)) s = 1 ↔ distance x y ≤ 0 := by
  rw [valueOf_le, boolBits_eq_one_iff (by decide), seqLe, decide_eq_true_iff]

theorem valueOf_gt_eq_one_iff : valueOf (.gt (seqOperand x) (seqOperand y)) s = 1 ↔ 0 < distance x y := by
  rw [valueOf_gt, boolBits_eq_one_iff (by decide), seqGt, decide_eq_true_iff]

theorem valueOf_ge_eq_one_iff : valueOf (.ge (seqOperand x) (seqOperand y)) s = 1 ↔ 0 ≤ distance x y := by
  rw [valueOf_ge, boolBits_eq_one_iff (by decide), seqGe, decide_eq_true_iff]

theorem valueOf_eq_eq_one_iff : valueOf (.eq (seqOperand x) (seqOperand y)) s = 1 ↔ distance x y = 0 := by
  rw [valueOf_eq, boolBits_eq_one_iff (by decide), seqEq_eq_decide_distance, decide_eq_true_iff]

end Responses

/-! ## Agreement with the circular comparison (R75, R76) -/

section Agreement

variable {x y : SeqNum} (s : State)

theorem agreesWithCircular_of_distance_mem (hlo : -128 ≤ distance x y) (hhi : distance x y ≤ 127) :
    AgreesWithCircular x y s := by
  have hc : circular x y = distance x y := by
    have hcases := circular_cases x y
    omega
  rw [AgreesWithCircular, hc]
  exact ⟨valueOf_lt_eq_one_iff x y s, valueOf_le_eq_one_iff x y s, valueOf_gt_eq_one_iff x y s,
    valueOf_ge_eq_one_iff x y s, valueOf_eq_eq_one_iff x y s⟩

theorem disagreesWithCircular_of_distance_not_mem (h : ¬(-128 ≤ distance x y ∧ distance x y ≤ 127)) :
    DisagreesWithCircular x y s := by
  have hopposite := circular_opposite h
  simp only [DisagreesWithCircular, valueOf_lt_eq_one_iff, valueOf_le_eq_one_iff, valueOf_gt_eq_one_iff, valueOf_ge_eq_one_iff]
  omega

end Agreement

/-! ## The obligations about one predicate -/

/-- Settles O35: the row at the condition `d < 0`. -/
theorem ltAnswersBehind : Obligations.LtAnswersBehind :=
  comparison_row_spec (row := .lt) (cond := (· < 0)) (fun _ _ _ => rfl) (fun _ _ => rfl) (fun _ _ => ⟨rfl, rfl⟩)
    fun _ _ => ⟨rfl, rfl⟩

/-- Settles O36: the row at the condition `d ≤ 0`. -/
theorem leAnswersBehindOrEqual : Obligations.LeAnswersBehindOrEqual :=
  comparison_row_spec (row := .le) (cond := (· ≤ 0)) (fun _ _ _ => rfl) (fun _ _ => rfl) (fun _ _ => ⟨rfl, rfl⟩)
    fun _ _ => ⟨rfl, rfl⟩

/-- Settles O37: the row at the condition `0 < d`. -/
theorem gtAnswersAhead : Obligations.GtAnswersAhead :=
  comparison_row_spec (row := .gt) (cond := (0 < ·)) (fun _ _ _ => rfl) (fun _ _ => rfl) (fun _ _ => ⟨rfl, rfl⟩)
    fun _ _ => ⟨rfl, rfl⟩

/-- Settles O38: the row at the condition `0 ≤ d`. -/
theorem geAnswersAheadOrEqual : Obligations.GeAnswersAheadOrEqual :=
  comparison_row_spec (row := .ge) (cond := (0 ≤ ·)) (fun _ _ _ => rfl) (fun _ _ => rfl) (fun _ _ => ⟨rfl, rfl⟩)
    fun _ _ => ⟨rfl, rfl⟩

/-- Settles O39: a normalised port value is its sequence number, so raw equality is the row at the condition `d = 0`. -/
theorem eqAnswersRawEquality : Obligations.EqAnswersRawEquality := by
  unfold Obligations.EqAnswersRawEquality
  obtain ⟨hok, herrors⟩ := comparison_row_spec (row := .eq) (cond := (· = 0)) (fun _ _ _ => rfl) seqEq_eq_decide_distance
    (fun _ _ => ⟨rfl, rfl⟩) fun _ _ => ⟨rfl, rfl⟩
  refine ⟨fun a b s ha hb => ?_, herrors⟩
  have hval : a.val = b.val ↔ signedRep a.val.toNat - signedRep b.val.toNat = 0 := by
    rw [← signed8_seqOf ha.2, ← signed8_seqOf hb.2, ← distance, distance_eq_zero_iff, ← BitVec.toNat_inj,
      ← BitVec.toNat_inj, seqOf_toNat_of_lt ha.2, seqOf_toNat_of_lt hb.2]
  refine ⟨?_, hval⟩
  simp only [hval]
  exact hok a b s ha hb

/-! ## The obligations about several predicates -/

/-- Settles O40: the predicates compare `signed8`, which is injective and has its ends at 128 and 127. -/
theorem predicatesAreOneLinearOrder : Obligations.PredicatesAreOneLinearOrder := by
  unfold Obligations.PredicatesAreOneLinearOrder
  intro x y z s
  simp only [valueOf_lt_eq_one_iff, valueOf_le_eq_one_iff, valueOf_gt_eq_one_iff, valueOf_ge_eq_one_iff, signedRep_toNat,
    distance, sub_neg, sub_nonpos, sub_pos, sub_nonneg, true_and]
  refine ⟨?total, lt_trans, fun hx => ?succ, signed8_128_lt, signed8_lt_127⟩
  case total =>
    rcases lt_trichotomy (signed8 x) (signed8 y) with hlt | heq | hgt
    · exact .inr (.inl hlt)
    · exact .inl (signed8_injective heq)
    · exact .inr (.inr hgt)
  case succ =>
    rw [signed8_add_one hx]
    exact Int.lt_succ _

/-- Settles O41: the laws of the predicates, carried over to their bits. -/
theorem predicatesObeyTrichotomyAndDuality : Obligations.PredicatesObeyTrichotomyAndDuality := by
  unfold Obligations.PredicatesObeyTrichotomyAndDuality
  intro x y s
  simp only [valueOf_lt, valueOf_le, valueOf_gt, valueOf_ge, valueOf_eq]
  rw [← boolBits_or, ← boolBits_or, ← boolBits_not, ← seqLe_eq_seqLt_or_seqEq, ← seqGe_eq_seqGt_or_seqEq,
    ← seqLe_eq_not_seqGt]
  refine ⟨?_, rfl, rfl, rfl, congrArg boolBits (seqGt_swap x y), congrArg boolBits (seqGe_swap x y)⟩
  rcases predicates_trichotomy x y with ⟨hlt, heq, hgt⟩ | ⟨hlt, heq, hgt⟩ | ⟨hlt, heq, hgt⟩ <;>
    simp [hlt, heq, hgt]

/-- Settles O42: the step carries 127 over to 128, the least number. -/
theorem orderIsNotRotationInvariant : Obligations.OrderIsNotRotationInvariant := by
  unfold Obligations.OrderIsNotRotationInvariant
  intro s
  rw [valueOf_add_intOperand, valueOf_add_intOperand, feedBack_seqBits, feedBack_seqBits, valueOf_lt, valueOf_lt]
  decide

/-- Settles O43: the cases of the distance against the circular distance. -/
theorem predicatesAgainstTheCircularOrder : Obligations.PredicatesAgainstTheCircularOrder := by
  unfold Obligations.PredicatesAgainstTheCircularOrder
  intro x y s
  simp only [valueOf_dist_toInt, valueOf_lt_eq_one_iff, valueOf_le_eq_one_iff, valueOf_gt_eq_one_iff, valueOf_ge_eq_one_iff]
  refine ⟨sign_distance_eq_sign_circular_iff x y, fun hout => ?_⟩
  have hopposite := circular_opposite hout
  omega

/-- Settles O44: each case bounds the distance, and the bound decides between agreement and disagreement. -/
theorem safeZoneOfThePredicates : Obligations.SafeZoneOfThePredicates := by
  unfold Obligations.SafeZoneOfThePredicates
  intro x y s
  simp only [valueOf_dist_toInt]
  have hagree : (distance x y).natAbs ≤ 127 → (distance x y).natAbs ≤ 127 ∧ AgreesWithCircular x y s := fun hd =>
    ⟨hd, agreesWithCircular_of_distance_mem s (by omega) (by omega)⟩
  refine ⟨fun hsame => hagree (natAbs_distance_le_of_same_half hsame), fun lo hi hxy hlo hhi => ?_,
    fun hd => agreesWithCircular_of_distance_mem s (by omega) (by omega),
    fun hd => disagreesWithCircular_of_distance_not_mem s (by omega)⟩
  have harc := natAbs_distance_of_opposite_halves hxy hlo hhi
  refine ⟨fun harc0 => hagree (by omega), fun harc128 => ?_, fun hhalf => by omega⟩
  have hfar : 129 ≤ (distance x y).natAbs := by omega
  exact ⟨hfar, disagreesWithCircular_of_distance_not_mem s (by omega)⟩

end Sys2Proof.CompareRules
end

section
/-! # The srange enumerator (42_srange.md)

A held sequence of length `L` (`rangeLength`) is at its position `k` when `SR_CUR` is `k` steps from the start, or `L` steps
once it is exhausted (`AtPosition`). `SRSTART` and `SRRESTART` put it at position 0, and each `SRNEXT` answers `responseAt` its
position and moves it to the next one. So one induction on the number of `SRNEXT` commands (`runs_srnext`) serves both
enumerations. -/

namespace Sys2Proof.SrangeRules

open Sys2Proof.Machine Sys2Proof.Safety Sys2Proof.Scope Sys2Proof.StateRules Sys2Proof.MemoryRules Sys2Proof.EncodingRules
  Sys2Proof.ConstructRules

/-! ## Sequence numbers as natural numbers -/

theorem seqOf_eq_ofNat {w : Nat} (v : BitVec w) : seqOf v = BitVec.ofNat 8 v.toNat :=
  BitVec.eq_of_toNat_eq (by rw [seqOf_toNat, BitVec.toNat_ofNat])

theorem seqBits_eq_ofNat {w : Nat} (x : SeqNum) : (seqBits x : BitVec w) = BitVec.ofNat w x.toNat :=
  (seqOperand_val x).symm

theorem stepForward_natCast_toNat (x : SeqNum) (n : Nat) : (stepForward x n).toNat = (x.toNat + n) % 256 := by
  have hstep := stepForward_toNat x n
  omega

theorem stepForward_one_eq_ofNat (x : SeqNum) : stepForward x 1 = BitVec.ofNat 8 ((x.toNat + 1) % 256) := by
  rw [← stepForward_natCast_toNat x 1, BitVec.ofNat_toNat, BitVec.setWidth_eq, Nat.cast_one]

/-! ## What the three commands leave -/

theorem withRange_of_loaded {w : Nat} {s : State w} (hl : s.srLoaded = true) (f : State w → State w) :
    withRange s f = f s :=
  if_pos hl

theorem takeElement_of_eq {w : Nat} {s : State w} (h : s.srCur = s.srEnd) : takeElement s = respond .none 0 true s :=
  if_pos h

theorem takeElement_of_ne {w : Nat} {s : State w} (h : s.srCur ≠ s.srEnd) :
    takeElement s = respond .seq (seqBits s.srCur) false (setCur (stepForward s.srCur 1) s) :=
  if_neg h

theorem takeElement_inputs {w : Nat} (s : State w) : (takeElement s).inputs = s.inputs := by
  rcases takeElement_cases s with ⟨-, h⟩ | ⟨-, h⟩ <;> rw [h] <;> rfl

theorem takeElement_stickyErr {w : Nat} (s : State w) : (takeElement s).stickyErr = s.stickyErr := by
  rcases takeElement_cases s with ⟨-, h⟩ | ⟨-, h⟩ <;> rw [h] <;> rfl

section Commands

variable {s : State}

theorem exec_srstart_ok {a b : Operand} (ha : ReadableSeq a) (hb : ReadableSeq b) (s : State) :
    exec (.srstart a b) s = .next (respond .none 0 false (loadRange (seqOf a.val) (seqOf b.val) s)) := by
  rw [exec_srstart, withSeqSeq_ok eight_le_intW ha hb]

theorem exec_srstart_seqOperand (x y : SeqNum) (s : State) :
    exec (.srstart (seqOperand x) (seqOperand y)) s = .next (respond .none 0 false (loadRange x y s)) := by
  have hread (z : SeqNum) := readableSeq_seqOperand eight_le_intW z
  rw [exec_srstart_ok (hread x) (hread y), seqOf_seqOperand eight_le_intW, seqOf_seqOperand eight_le_intW]

theorem exec_srnext_of_loaded (a b : Operand) (hl : s.srLoaded = true) : exec (.srnext a b) s = .next (takeElement s) := by
  rw [exec_srnext, withRange_of_loaded hl]

theorem exec_srrestart_of_loaded (a b : Operand) (hl : s.srLoaded = true) :
    exec (.srrestart a b) s = .next (respond .none 0 false (setCur s.srStart s)) := by
  rw [exec_srrestart, withRange_of_loaded hl]

end Commands

/-! ## The elements of a range (R82 to R84) -/

section Range

variable {x y : SeqNum}

/-- The length of `srange(x, y)`: `(y − x) mod 256` (R83). -/
def rangeLength (x y : SeqNum) : Nat := (y.toNat + 256 - x.toNat) % 256

theorem stepForward_rangeLength (x y : SeqNum) : stepForward x (rangeLength x y) = y := by
  have hx := x.isLt
  have hy := y.isLt
  apply BitVec.eq_of_toNat_eq
  rw [stepForward_natCast_toNat, rangeLength]
  omega

theorem element_ne_stop {k : Nat} (hk : k < rangeLength x y) : (x.toNat + k) % 256 ≠ y.toNat := by
  have hx := x.isLt
  rw [rangeLength] at hk
  omega

theorem element_ne_element {j k : Nat} (hjk : j < k) (hk : k < rangeLength x y) :
    (x.toNat + j) % 256 ≠ (x.toNat + k) % 256 := by
  rw [rangeLength] at hk
  omega

/-- What `SRNEXT` answers at position `k` of `srange(x, y)`: the element `(x + k) mod 256`, or done once none is left. -/
def responseAt (w : Nat) (x y : SeqNum) (k : Nat) : Response w :=
  if k < rangeLength x y then ⟨true, 0, 1, BitVec.ofNat w ((x.toNat + k) % 256), false⟩ else ⟨true, 0, 0, 0, true⟩

theorem responseAt_of_lt {w k : Nat} (hk : k < rangeLength x y) :
    responseAt w x y k = ⟨true, 0, 1, BitVec.ofNat w ((x.toNat + k) % 256), false⟩ :=
  if_pos hk

theorem responseAt_of_le {w k : Nat} (hk : rangeLength x y ≤ k) : responseAt w x y k = ⟨true, 0, 0, 0, true⟩ :=
  if_neg (Nat.not_lt.mpr hk)

end Range

/-! ## The position in the held sequence -/

/-- The block holds `srange(x, y)` after `k` of its `SRNEXT` commands; those past the last element do not move `SR_CUR`. -/
structure AtPosition {w : Nat} (x y : SeqNum) (k : Nat) (s : State w) : Prop where
  loaded : s.srLoaded = true
  start : s.srStart = x
  stop : s.srEnd = y
  cur : s.srCur = stepForward x (min k (rangeLength x y) : Nat)

section Position

variable {w k : Nat} {x y : SeqNum} {s : State w}

theorem atPosition_zero (hl : s.srLoaded = true) (hstart : s.srStart = x) (hstop : s.srEnd = y) (hcur : s.srCur = x) :
    AtPosition x y 0 s where
  loaded := hl
  start := hstart
  stop := hstop
  cur := by rw [hcur, Nat.zero_min, Nat.cast_zero, stepForward_zero_right]

/-- The position does not depend on what the client drives next. -/
theorem AtPosition.setInputs (h : AtPosition x y k s) (es : List (Edge w)) : AtPosition x y k { s with inputs := es } :=
  ⟨h.loaded, h.start, h.stop, h.cur⟩

/-- Before the last element has been taken, `SR_CUR` is the element at the position. -/
theorem AtPosition.cur_of_lt (h : AtPosition x y k s) (hk : k < rangeLength x y) : s.srCur = stepForward x k := by
  rw [h.cur, Nat.min_eq_left hk.le]

/-- R84: after the last element `SR_CUR` rests at the end. -/
theorem AtPosition.cur_of_le (h : AtPosition x y k s) (hk : rangeLength x y ≤ k) : s.srCur = y := by
  rw [h.cur, Nat.min_eq_right hk, stepForward_rangeLength]

theorem AtPosition.takeElement_of_lt (h : AtPosition x y k s) (hk : k < rangeLength x y) :
    takeElement s = respond .seq (seqBits (stepForward x k)) false (setCur (stepForward x (k + 1 : Nat)) s) := by
  have hcur := h.cur_of_lt hk
  have hne : s.srCur ≠ s.srEnd := fun heq => element_ne_stop hk <| by
    rw [← stepForward_natCast_toNat, ← hcur, heq, h.stop]
  rw [takeElement_of_ne hne, hcur, stepForward_stepForward, Nat.cast_succ]

theorem AtPosition.takeElement_of_le (h : AtPosition x y k s) (hk : rangeLength x y ≤ k) :
    takeElement s = respond .none 0 true s :=
  takeElement_of_eq ((h.cur_of_le hk).trans h.stop.symm)

/-- R82, R84: taking an element answers the response of the position. -/
theorem AtPosition.takeElement_rsp (h : AtPosition x y k s) : (takeElement s).rsp = responseAt w x y k := by
  rcases lt_or_ge k (rangeLength x y) with hk | hk
  · rw [h.takeElement_of_lt hk, responseAt_of_lt hk, seqBits_eq_ofNat, stepForward_natCast_toNat]
    rfl
  · rw [h.takeElement_of_le hk, responseAt_of_le hk]
    rfl

/-- Taking an element moves the sequence to its next position. -/
theorem AtPosition.takeElement_next (h : AtPosition x y k s) : AtPosition x y (k + 1) (takeElement s) := by
  rcases lt_or_ge k (rangeLength x y) with hk | hk
  · rw [h.takeElement_of_lt hk]
    exact ⟨h.loaded, h.start, h.stop, by rw [Nat.min_eq_left hk]; rfl⟩
  · rw [h.takeElement_of_le hk]
    exact ⟨h.loaded, h.start, h.stop, by
      rw [respond_srCur, h.cur_of_le hk, Nat.min_eq_right (by omega), stepForward_rangeLength]⟩

end Position

/-! ## Runs of presented commands -/

section Runs

variable {s t u : State} {es : List Edge}

/-- A well-formed command presented at the coming edge is run at it (R39, R94). -/
theorem step_present {i : Instr} (hwf : i.wellFormed = true) (hin : s.inputs = present i :: es) :
    step s = exec i { s with inputs := es } := by
  obtain ⟨haccept, -⟩ := portAcceptsExactlyValidRequests s (present i) es hin rfl
  rw [(haccept rfl).1]
  exact acceptCommand_of_decode ((decode_eq_ok_iff _ i).mpr ⟨rfl, hwf⟩) _

/-- A run from a presented command is that command and then the rest of the run. -/
theorem runs_present {n : Nat} {i : Instr} (hwf : i.wellFormed = true) (hin : s.inputs = present i :: es)
    (hexec : exec i { s with inputs := es } = .next u) (hrun : Runs n u t) : Runs (n + 1) s t :=
  (runs_succ n s t).mpr ⟨u, (step_present hwf hin).trans hexec, hrun⟩

/-- One presented `SRNEXT` on a held sequence takes an element. -/
theorem runs_srnext_cons {n : Nat} (hl : s.srLoaded = true) (hin : s.inputs = present nextCommand :: es)
    (hrun : Runs n (takeElement { s with inputs := es }) t) : Runs (n + 1) s t :=
  runs_present rfl hin (exec_srnext_of_loaded (s := { s with inputs := es }) _ _ hl) hrun

/-- R82, R84: from position `k`, the last of `i + 1` presented `SRNEXT` commands answers the response of position `k + i`. -/
theorem runs_srnext {x y : SeqNum} {k : Nat} (i : Nat) (h : AtPosition x y k s)
    (hin : s.inputs = List.replicate (i + 1) (present nextCommand) ++ es) :
    ∃ t, Runs (i + 1) s t ∧ AtPosition x y (k + i + 1) t ∧ t.rsp = responseAt Config.intW x y (k + i) ∧ t.inputs = es ∧
      t.stickyErr = s.stickyErr := by
  rw [List.replicate_succ, List.cons_append] at hin
  induction i generalizing s k with
  | zero =>
    have hpos := h.setInputs es
    exact ⟨_, runs_srnext_cons h.loaded hin ((runs_zero _ _).mpr rfl), hpos.takeElement_next, hpos.takeElement_rsp,
      takeElement_inputs _, takeElement_stickyErr _⟩
  | succ i ih =>
    have hpos := h.setInputs (List.replicate (i + 1) (present nextCommand) ++ es)
    obtain ⟨t, hrun, ht, hrsp, hinputs, hsticky⟩ := ih hpos.takeElement_next (takeElement_inputs _)
    rw [Nat.add_right_comm k 1 i] at ht hrsp
    exact ⟨t, runs_srnext_cons h.loaded hin hrun, ht, hrsp, hinputs, hsticky.trans (takeElement_stickyErr _)⟩

/-- A command that puts the sequence at position 0, then `i + 1` presented `SRNEXT` commands. -/
theorem runs_enumeration {x y : SeqNum} {c : Instr} {i : Nat} (hwf : c.wellFormed = true)
    (hin : s.inputs = present c :: (List.replicate (i + 1) (present nextCommand) ++ es))
    (hexec : exec c { s with inputs := List.replicate (i + 1) (present nextCommand) ++ es } = .next u)
    (hu : AtPosition x y 0 u) :
    ∃ t, Runs (i + 2) s t ∧ AtPosition x y (i + 1) t ∧ t.rsp = responseAt Config.intW x y i ∧ t.inputs = es ∧
      t.stickyErr = u.stickyErr := by
  obtain ⟨t, hrun, ht, hrsp, hinputs, hsticky⟩ := runs_srnext i hu (exec_own_fields hexec).1
  rw [Nat.zero_add] at ht hrsp
  exact ⟨t, runs_present hwf hin hexec hrun, ht, hrsp, hinputs, hsticky⟩

end Runs

/-! ## The obligations about one command -/

/-- Settles O45: the low 8 bits of a normalised port value are its sequence number. -/
theorem srstartLoadsTheRange : Obligations.SrstartLoadsTheRange := by
  unfold Obligations.SrstartLoadsTheRange
  refine ⟨fun a b s ha hb => ?_, fun a b s h => ?_, fun a b s ha hb h => ?_,
    exists_decode_iff_eq (fun _ _ => ⟨rfl, rfl⟩) fun _ _ => ⟨rfl, rfl⟩⟩
  · rw [exec_srstart_ok ha hb, seqOf_eq_ofNat, seqOf_eq_ofNat]
    rfl
  · rw [exec_srstart, withSeqSeq_typeError h]
  · rw [exec_srstart, withSeqSeq_notNormalized eight_le_intW ha hb h]

/-- Settles O46: the two ways of taking an element from a held sequence, and `NO_RANGE` without one. -/
theorem srnextTakesTheNextElement : Obligations.SrnextTakesTheNextElement := by
  unfold Obligations.SrnextTakesTheNextElement
  refine ⟨fun a b s hl hne => ?_, fun a b s hl heq => ?_, fun a b s hl => (exec_of_not_loaded a b hl).1, decode_srnext_iff⟩
  · rw [exec_srnext_of_loaded a b hl, takeElement_of_ne hne, seqBits_eq_ofNat, stepForward_one_eq_ofNat]
    rfl
  · rw [exec_srnext_of_loaded a b hl, takeElement_of_eq heq]
    rfl

/-- Settles O47: the cursor is moved back on a held sequence, and `NO_RANGE` is raised without one. -/
theorem srrestartReturnsToTheStart : Obligations.SrrestartReturnsToTheStart := by
  unfold Obligations.SrrestartReturnsToTheStart
  exact ⟨fun a b s hl => exec_srrestart_of_loaded a b hl, fun a b s hl => (exec_of_not_loaded a b hl).2,
    exists_decode_iff (fun _ _ => ⟨rfl, rfl⟩) fun _ _ => ⟨rfl, rfl⟩⟩

/-! ## The obligations about an enumeration -/

/-- Settles O48: `SRSTART` holds the range at position 0, from where the `SRNEXT` commands run through it. -/
theorem srnextEnumeratesTheRange : Obligations.SrnextEnumeratesTheRange := by
  unfold Obligations.SrnextEnumeratesTheRange
  intro x y s es i hin
  obtain ⟨t, hrun, ht, hrsp, hinputs, hsticky⟩ :=
    runs_enumeration rfl hin (exec_srstart_seqOperand x y _) (atPosition_zero rfl rfl rfl rfl)
  refine ⟨t, hrun, ht.loaded, ht.start, ht.stop, hsticky, hinputs, fun hi => ?_, fun hi => ?_⟩
  · exact ⟨hrsp.trans (responseAt_of_lt hi), element_ne_stop hi, fun j hj => element_ne_element hj hi⟩
  · exact ⟨hrsp.trans (responseAt_of_le hi), ht.cur_of_le (Nat.le_succ_of_le hi)⟩

/-- Settles O49: `SRRESTART` puts any held sequence back at position 0, from where it is enumerated as after `SRSTART`. -/
theorem srrestartEnumeratesTheRangeAgain : Obligations.SrrestartEnumeratesTheRangeAgain := by
  unfold Obligations.SrrestartEnumeratesTheRangeAgain
  intro s es i hl hin
  obtain ⟨t, hrun, ht, hrsp, hinputs, -⟩ :=
    runs_enumeration rfl hin (exec_srrestart_of_loaded _ _ hl) (atPosition_zero hl rfl rfl rfl)
  exact ⟨t, hrun, ht.loaded, ht.start, ht.stop, hinputs,
    fun hi => hrsp.trans (responseAt_of_lt hi), fun hi => hrsp.trans (responseAt_of_le hi)⟩

end Sys2Proof.SrangeRules
end

section
/-! # Responses and errors (60_exceptions.md)

A command ends as its rows of the tables of R90 and R92 say, and with the code of its first error cause (`RowEnding`); this is
shown once per operand form and read off for every command (`execAt_row`). A word that is not reserved is the triple of a command
(`reserved_or_encode`), so what is said of commands carries over to accepted words. What a command leaves does not depend on the
response before it, and on `STICKY_ERR` only in that bit (`exec_sticky`). -/

namespace Sys2Proof.ExceptionRules

open Sys2Proof.Machine Sys2Proof.Safety Sys2Proof.Scope Sys2Proof.StateRules Sys2Proof.MemoryRules Sys2Proof.EncodingRules
  Sys2Proof.SrangeRules

/-! ## The first error cause of a command's own triple (R94) -/

section FirstError

variable {w : Nat} {i : Instr w} (s : State w)

/-- What `firstError` takes from the triple of a command: `rsv`, `op`, the two kind bits and the two values (R38). -/
theorem encode_cmd_fields (i : Instr w) :
    (encode i).cmd.toNat / 64 = 0 ∧ (encode i).cmd.toNat % 16 = (opOfInstr i).toNat ∧
      (encode i).cmd.toNat / 16 % 2 = (bitOfKind i.opA.kind).toNat ∧
      (encode i).cmd.toNat / 32 % 2 = (bitOfKind i.opB.kind).toNat ∧
      (encode i).aVal = i.opA.val ∧ (encode i).bVal = i.opB.val := by
  have hword := encode_cmd_toNat i
  have hop := (opOfInstr i).isLt
  have hbitA := (bitOfKind i.opA.kind).isLt
  have hbitB := (bitOfKind i.opB.kind).isLt
  exact ⟨by omega, by omega, by omega, by omega, rfl, rfl⟩

/-- The causes of a command on two sequence numbers, in their order. -/
theorem firstError_seqSeq (hop : (opOfInstr i).toNat = 1 ∨ (4 ≤ (opOfInstr i).toNat ∧ (opOfInstr i).toNat ≤ 9)) :
    firstError s (encode i) =
      if i.opA.kind = .int ∨ i.opB.kind = .int then 2
      else if 256 ≤ i.opA.val.toNat ∨ 256 ≤ i.opB.val.toNat then 3 else 0 := by
  obtain ⟨hrsv, hopw, hkA, hkB, hvA, hvB⟩ := encode_cmd_fields i
  have hseq : 1 ≤ (opOfInstr i).toNat ∧ (opOfInstr i).toNat ≤ 9 := by omega
  have hothers : ¬12 ≤ (opOfInstr i).toNat ∧ ¬(opOfInstr i).toNat = 0 ∧
      ¬((opOfInstr i).toNat = 2 ∨ (opOfInstr i).toNat = 3) ∧
      ¬((opOfInstr i).toNat = 10 ∨ (opOfInstr i).toNat = 11) := by omega
  simp only [firstError, hrsv, hopw, hkA, hkB, hvA, hvB, eq_true hop, eq_true hseq, hothers]
  cases i.opA.kind <;> cases i.opB.kind <;> simp [bitOfKind, ite_or]

/-- The causes of a command on a sequence number and a count, in their order. -/
theorem firstError_seqInt (hop : (opOfInstr i).toNat = 2 ∨ (opOfInstr i).toNat = 3) :
    firstError s (encode i) =
      if i.opA.kind = .int ∨ i.opB.kind = .seq then 2 else if 256 ≤ i.opA.val.toNat then 3 else 0 := by
  obtain ⟨hrsv, hopw, hkA, hkB, hvA, hvB⟩ := encode_cmd_fields i
  have hseq : 1 ≤ (opOfInstr i).toNat ∧ (opOfInstr i).toNat ≤ 9 := by omega
  have hothers : ¬12 ≤ (opOfInstr i).toNat ∧ ¬(opOfInstr i).toNat = 0 ∧
      ¬((opOfInstr i).toNat = 1 ∨ 4 ≤ (opOfInstr i).toNat ∧ (opOfInstr i).toNat ≤ 9) ∧
      ¬((opOfInstr i).toNat = 10 ∨ (opOfInstr i).toNat = 11) := by omega
  simp only [firstError, hrsv, hopw, hkA, hkB, hvA, hvB, eq_true hop, eq_true hseq, hothers]
  cases i.opA.kind <;> cases i.opB.kind <;> simp [bitOfKind]

/-- The one cause of a command on an integer. -/
theorem firstError_int (hop : (opOfInstr i).toNat = 0) :
    firstError s (encode i) = if i.opA.kind = .seq then 2 else 0 := by
  obtain ⟨hrsv, hopw, hkA, -, -, -⟩ := encode_cmd_fields i
  simp only [firstError, hrsv, hopw, hkA, hop]
  cases i.opA.kind <;> simp [bitOfKind]

/-- The one cause of a command on the held sequence. -/
theorem firstError_range (hop : (opOfInstr i).toNat = 10 ∨ (opOfInstr i).toNat = 11) :
    firstError s (encode i) = if s.srLoaded = false then 4 else 0 := by
  obtain ⟨hrsv, hopw, -, -, -, -⟩ := encode_cmd_fields i
  rw [firstError, hrsv, hopw]
  rcases hop with h | h <;> simp [h]

/-- A reserved bit or a reserved `op` comes before every other cause (R46, R47). -/
theorem firstError_reserved {c : Command w} (h : 12 ≤ c.cmd.toNat % 16 ∨ c.cmd.toNat / 64 ≠ 0) : firstError s c = 1 := by
  rw [firstError]
  by_cases hrsv : c.cmd.toNat / 64 ≠ 0
  · rw [if_pos hrsv]
  · rw [if_neg hrsv, if_pos (h.resolve_right hrsv)]

end FirstError

/-! ## What each command answers -/

/-- The ways a command can end by the tables of R90 and R92, with the code of its first error cause (R94). -/
inductive RowEnding {w : Nat} : Instr w → State w → State w → Prop where
  /-- An error of the command's row of R92. -/
  | failed {i : Instr w} {s : State w} (e : CmdError) (hcol : raisesColumn i (errCode e))
      (hfirst : firstError s (encode i) = errCode e) : RowEnding i s (raise e s)
  /-- A result of the kind in the command's row of R90, which is not done. -/
  | answered {i : Instr w} {s : State w} (k : ResultKind) (v : Word w) (u : State w)
      (hkind : kindCode k = kindColumn i false) (hfirst : firstError s (encode i) = 0) : RowEnding i s (respond k v false u)
  /-- `SRNEXT` on a held, exhausted sequence: done (R80). -/
  | exhausted {a b : Operand w} {s : State w} (hl : s.srLoaded = true) (he : s.srCur = s.srEnd)
      (hfirst : firstError s (encode (.srnext a b)) = 0) : RowEnding (.srnext a b) s (respond .none 0 true s)

section Rows

variable {w : Nat} {i : Instr w} {s t : State w}

section Reads

variable (hw : 8 ≤ w)
include hw

theorem rowEnding_withSeqSeq {f : SeqNum → SeqNum → State w}
    (hop : (opOfInstr i).toNat = 1 ∨ (4 ≤ (opOfInstr i).toNat ∧ (opOfInstr i).toNat ≤ 9))
    (hcol : ∀ c, c = 2 ∨ c = 3 → raisesColumn i c)
    (hf : firstError s (encode i) = 0 → ∀ x y, RowEnding i s (f x y)) : RowEnding i s (withSeqSeq i.opA i.opB s f) := by
  have hfirst := firstError_seqSeq s hop
  rcases withSeqSeq_cases hw i.opA i.opB s f with ⟨⟨hA, hnA⟩, ⟨hB, hnB⟩, h⟩ | ⟨hk, h⟩ | ⟨hA, hB, hn, h⟩ <;> rw [h]
  · exact hf (by rw [hfirst, if_neg (by simp [hA, hB]), if_neg (by omega)]) _ _
  · exact .failed .typeError (hcol _ (.inl rfl)) (by rw [hfirst, if_pos hk]; rfl)
  · exact .failed .notNormalized (hcol _ (.inr rfl)) (by rw [hfirst, if_neg (by simp [hA, hB]), if_pos hn]; rfl)

theorem rowEnding_withSeqInt {f : SeqNum → Int → State w} (hop : (opOfInstr i).toNat = 2 ∨ (opOfInstr i).toNat = 3)
    (hcol : ∀ c, c = 2 ∨ c = 3 → raisesColumn i c)
    (hf : firstError s (encode i) = 0 → ∀ x n, RowEnding i s (f x n)) : RowEnding i s (withSeqInt i.opA i.opB s f) := by
  have hfirst := firstError_seqInt s hop
  rcases withSeqInt_cases hw i.opA i.opB s f with ⟨⟨hA, hnA⟩, hB, h⟩ | ⟨hk, h⟩ | ⟨hA, hB, hn, h⟩ <;> rw [h]
  · exact hf (by rw [hfirst, if_neg (by simp [hA, hB]), if_neg (by omega)]) _ _
  · exact .failed .typeError (hcol _ (.inl rfl)) (by rw [hfirst, if_pos hk]; rfl)
  · exact .failed .notNormalized (hcol _ (.inr rfl)) (by rw [hfirst, if_neg (by simp [hA, hB]), if_pos hn]; rfl)

end Reads

theorem rowEnding_withInt {f : Int → State w} (hop : (opOfInstr i).toNat = 0) (hcol : raisesColumn i 2)
    (hf : firstError s (encode i) = 0 → ∀ n, RowEnding i s (f n)) : RowEnding i s (withInt i.opA s f) := by
  have hfirst := firstError_int s hop
  rcases withInt_cases i.opA s f with ⟨hA, h⟩ | ⟨hA, h⟩ <;> rw [h]
  · exact hf (by rw [hfirst, if_neg (by simp [hA])]) _
  · exact .failed .typeError hcol (by rw [hfirst, if_pos hA]; rfl)

theorem rowEnding_withRange {f : State w → State w} (hop : (opOfInstr i).toNat = 10 ∨ (opOfInstr i).toNat = 11)
    (hcol : raisesColumn i 4) (hf : firstError s (encode i) = 0 → s.srLoaded = true → RowEnding i s (f s)) :
    RowEnding i s (withRange s f) := by
  have hfirst := firstError_range s hop
  rcases withRange_cases s f with ⟨hl, h⟩ | ⟨hl, h⟩ <;> rw [h]
  · exact hf (by rw [hfirst, if_neg (by simp [hl])]) hl
  · exact .failed .noRange hcol (by rw [hfirst, if_pos hl]; rfl)

/-- Every command ends by its rows of the tables, on ports that hold a sequence number. -/
theorem execAt_row (hw : 8 ≤ w) (i : Instr w) (s : State w) : ∃ t, execAt i s = .next t ∧ RowEnding i s t := by
  cases i with
  | norm a b => exact ⟨_, execAt_norm a b s, rowEnding_withInt rfl rfl fun h0 _ => .answered _ _ _ rfl h0⟩
  | add a b | subn a b =>
    exact ⟨_, rfl, rowEnding_withSeqInt hw (by simp [opOfInstr]) (fun _ => id) fun h0 _ _ => .answered _ _ _ rfl h0⟩
  | dist a b | lt a b | le a b | gt a b | ge a b | eq a b | srstart a b =>
    exact ⟨_, rfl, rowEnding_withSeqSeq hw (by simp [opOfInstr]) (fun _ => id) fun h0 _ _ => .answered _ _ _ rfl h0⟩
  | srnext a b =>
    refine ⟨_, execAt_srnext a b s, rowEnding_withRange (.inl rfl) rfl fun h0 hl => ?_⟩
    rcases takeElement_cases s with ⟨he, h⟩ | ⟨-, h⟩ <;> rw [h]
    · exact .exhausted hl he h0
    · exact .answered _ _ _ rfl h0
  | srrestart a b =>
    exact ⟨_, execAt_srrestart a b s, rowEnding_withRange (.inr rfl) rfl fun h0 _ => .answered _ _ _ rfl h0⟩

theorem firstError_of_row (h : RowEnding i s t) : firstError s (encode i) = t.rsp.err := by
  cases h with
  | failed _ _ hfirst | answered _ _ _ _ hfirst | exhausted _ _ hfirst => exact hfirst

end Rows

theorem exec_row (i : Instr) (s : State) : ∃ t, exec i s = .next t ∧ RowEnding i s t := by
  rw [exec_eq_execAt]
  exact execAt_row eight_le_intW i s

theorem rowEnding_of_exec {i : Instr} {s t : State} (h : exec i s = .next t) : RowEnding i s t := by
  obtain ⟨u, hu, hrow⟩ := exec_row i s
  rw [h] at hu
  cases hu
  exact hrow

/-! ## Words that are not reserved (R50) -/

/-- The kinds are checked in the decoder and in the commands; a command with a kind it does not take raises `TYPE_ERROR` (R42). -/
theorem execAt_of_not_wellFormed {w : Nat} {i : Instr w} (hwf : i.wellFormed = false) (s : State w) :
    execAt i s = .next (raise .typeError s) := by
  cases i with
  | norm a b =>
    have ha : a.kind = .seq := (kind_ne_int_iff _).mp (of_decide_eq_false hwf)
    rw [execAt_norm, withInt, readInt_typeError ha]
  | add a b | subn a b =>
    have hk : a.kind = .int ∨ b.kind = .seq := by
      simpa only [not_and_or, kind_ne_seq_iff, kind_ne_int_iff] using of_decide_eq_false hwf
    simp only [execAt_add, execAt_subn, withSeqInt, readSeqInt_typeError hk]
  | dist a b | lt a b | le a b | gt a b | ge a b | eq a b | srstart a b =>
    have hk : a.kind = .int ∨ b.kind = .int := by
      simpa only [not_and_or, kind_ne_seq_iff] using of_decide_eq_false hwf
    simp only [execAt_dist, execAt_lt, execAt_le, execAt_gt, execAt_ge, execAt_eq, execAt_srstart, withSeqSeq,
      readSeqSeq_typeError hk]
  | srnext | srrestart => cases hwf

theorem firstError_of_not_wellFormed {w : Nat} (hw : 8 ≤ w) {i : Instr w} (hwf : i.wellFormed = false) (s : State w) :
    firstError s (encode i) = 2 := by
  obtain ⟨t, ht, hrow⟩ := execAt_row hw i s
  rw [execAt_of_not_wellFormed hwf] at ht
  cases ht
  exact firstError_of_row hrow

theorem twelve_le_of_instrOfOp_none {w op : Nat} {a b : Operand w} (h : instrOfOp op a b = none) : 12 ≤ op := by
  by_contra hop
  rw [Nat.not_le] at hop
  interval_cases op <;> cases h

/-- A word is reserved, or the triple of a command, which the decoder reads unless it is ill-formed. -/
theorem reserved_or_encode {w : Nat} (c : Command w) :
    (12 ≤ c.cmd.toNat % 16 ∨ c.cmd.toNat / 64 ≠ 0) ∨
      ∃ i, encode i = c ∧ (decode c = .ok i ∨ (i.wellFormed = false ∧ decode c = .error .typeError)) := by
  rcases decode_cases c with ⟨hrsv | hnone, -⟩ | ⟨hrsv, i, hi, hkinds⟩
  · exact .inl (.inr (mt (cmdRsv_eq_zero_iff c).mpr hrsv))
  · exact .inl (.inl (cmdOp_toNat c ▸ twelve_le_of_instrOfOp_none hnone))
  · obtain ⟨hA, hB⟩ := instrOfOp_operands hi
    refine .inr ⟨i, (encode_eq_iff c i).mpr ⟨hA, hB, hrsv, BitVec.eq_of_toNat_eq (op_of_instrOfOp hi)⟩, ?_⟩
    rcases hkinds with ⟨hk, hd⟩ | ⟨-, -, hd⟩
    · exact .inr ⟨by simpa only [wellFormed_of_kindMeets hi, Bool.and_eq_false_iff] using hk, hd⟩
    · exact .inl hd

/-! ## What a later command sees of an error (R95) -/

/-- States that differ only in the sticky bit and the response are left by a command in states that differ only in that bit. -/
theorem exec_sticky (i : Instr) (s : State) (r : Response) :
    ∃ u, exec i s = .next u ∧ exec i { s with stickyErr := true, rsp := r } = .next { u with stickyErr := true } := by
  obtain ⟨u, v, hu, hv, hagree⟩ := exec_agree i s { s with stickyErr := true, rsp := r } fun _ => ⟨rfl, rfl, rfl, rfl⟩
  refine ⟨u, hu, hv.trans (congrArg _ ?_)⟩
  obtain ⟨hstart, hend, hcur, hloaded⟩ := hagree.iterator ⟨rfl, rfl, rfl, rfl⟩
  have hrsp := eq_of_sameAnswer hagree.answer
  have hsticky : v.stickyErr = true := (stickyErr_iff_of_ending (ending_of_exec hv)).mpr (.inl rfl)
  obtain ⟨huIn, huIdle⟩ := exec_own_fields hu
  obtain ⟨hvIn, hvIdle⟩ := exec_own_fields hv
  obtain ⟨⟨⟩, _, _⟩ := u
  obtain ⟨⟨⟩, _, _⟩ := v
  simp_all

theorem acceptCommand_sticky (c : Command) (s : State) (r : Response) :
    ∃ u, acceptCommand c s = .next u ∧
      acceptCommand c { s with stickyErr := true, rsp := r } = .next { u with stickyErr := true } := by
  cases hd : decode c with
  | error e => exact ⟨_, acceptCommand_of_reject hd s, acceptCommand_of_reject hd _⟩
  | ok i =>
    simp only [acceptCommand_of_decode hd]
    exact exec_sticky i s r

theorem acceptAll_cons {c : Command} {s t : State} (h : acceptCommand c s = .next t) (cs : List Command) :
    acceptAll (c :: cs) s = acceptAll cs t := by
  rw [acceptAll, h]

/-- As for one command: each leaves a response of its own, and only the sticky bit is passed on. -/
theorem acceptAll_sticky (c : Command) (cs : List Command) (s : State) (r : Response) :
    ∃ u, acceptAll (c :: cs) s = .next u ∧
      acceptAll (c :: cs) { s with stickyErr := true, rsp := r } = .next { u with stickyErr := true } := by
  obtain ⟨u, hu, hv⟩ := acceptCommand_sticky c s r
  rw [acceptAll_cons hu, acceptAll_cons hv]
  induction cs generalizing c s r u with
  | nil => exact ⟨u, rfl, rfl⟩
  | cons d ds ih =>
    obtain ⟨t, ht, ht'⟩ := acceptCommand_sticky d u u.rsp
    rw [acceptAll_cons ht, acceptAll_cons ht']
    exact ih d u u.rsp t ht ht'

/-! ## Runs of driven edges without a reset (R96) -/

/-- Every edge consumes what the client drove at it, and nothing else. -/
theorem inputs_of_step {s u : State} (h : step s = .next u) : u.inputs = s.inputs.tail := by
  cases edgeEnding_of_step h with
  | reset | rejected | idle => rfl
  | ran _ _ i _ _ hrun => exact (exec_own_fields ((exec_eq_execAt i _).trans hrun)).1

theorem stickyErr_of_runs {n : Nat} {s t : State} (hlen : n ≤ s.inputs.length) (hrun : Runs n s t)
    (hrst : ∀ e ∈ s.inputs.take n, e.rst = false) (hs : s.stickyErr = true) : t.stickyErr = true := by
  induction n generalizing s with
  | zero => rwa [← (runs_zero s t).mp hrun]
  | succ n ih =>
    obtain ⟨u, hstep, hrest⟩ := (runs_succ n s t).mp hrun
    have hinputs := inputs_of_step hstep
    cases hin : s.inputs with
    | nil => simp [hin] at hlen
    | cons e es =>
      rw [hin, List.tail_cons] at hinputs
      rw [hin] at hlen hrst
      have hu : u.stickyErr = true :=
        (stickyErrRemembersEveryError s u e es hin hstep).mpr ⟨hrst e (by simp), .inl hs⟩
      refine ih ?_ hrest ?_ hu <;> rw [hinputs]
      · simpa using hlen
      · exact fun e' he' => hrst e' (List.mem_cons_of_mem e he')

/-! ## The obligations -/

/-- Settles O6: by induction on the run; no edge of it clears the bit. -/
theorem stickyErrStaysUntilReset : Obligations.StickyErrStaysUntilReset := by
  unfold Obligations.StickyErrStaysUntilReset
  intro n s t hlen hrun hrst
  have hkeeps := stickyErr_of_runs hlen hrun hrst
  refine ⟨hkeeps, fun ⟨_, hsafe⟩ => ?_⟩
  exact Bool.eq_false_iff.mpr fun hs => Bool.eq_false_iff.mp hsafe (hkeeps hs)

/-- Settles O50: of the row endings only the exhausted `SRNEXT` is done. -/
theorem doneComesOnlyFromAnExhaustedSrnext : Obligations.DoneComesOnlyFromAnExhaustedSrnext := by
  unfold Obligations.DoneComesOnlyFromAnExhaustedSrnext
  intro i s t h
  constructor
  · intro hdone
    cases rowEnding_of_exec h with
    | failed | answered => cases hdone
    | exhausted hl he => exact ⟨⟨_, _, rfl⟩, hl, he⟩
  · rintro ⟨⟨a, b, rfl⟩, hl, he⟩
    rw [exec_srnext_of_loaded a b hl, takeElement_of_eq he] at h
    cases h
    rfl

/-- Settles O51: each way a command can end by its row. -/
theorem resultKindsFollowTheTable : Obligations.ResultKindsFollowTheTable := by
  unfold Obligations.ResultKindsFollowTheTable
  intro i s
  obtain ⟨t, ht, hrow⟩ := exec_row i s
  refine ⟨t, ht, ?_⟩
  cases hrow with
  | failed e => exact ⟨rfl, fun herr => absurd herr (raise_err_ne_zero e s), fun _ => ⟨rfl, rfl⟩⟩
  | answered _ _ _ hkind => exact ⟨rfl, fun _ => hkind, fun herr => absurd rfl herr⟩
  | exhausted => exact ⟨rfl, fun _ => rfl, fun herr => absurd rfl herr⟩

/-- Settles O52: an error of a command is one of its row. -/
theorem errorsAreRaisedOnlyByTheirCommands : Obligations.ErrorsAreRaisedOnlyByTheirCommands := by
  unfold Obligations.ErrorsAreRaisedOnlyByTheirCommands
  intro i s t h herr
  cases rowEnding_of_exec h with
  | failed e hcol => exact hcol
  | answered | exhausted => exact absurd rfl herr

/-- Settles O53: the decoder rejects a reserved or ill-formed word for its first cause, and a command it reads reports its own. -/
theorem firstErrorCauseIsReported : Obligations.FirstErrorCauseIsReported := by
  unfold Obligations.FirstErrorCauseIsReported
  intro c s
  rcases reserved_or_encode c with hres | ⟨i, rfl, hd | ⟨hwf, hd⟩⟩
  · rw [firstError_reserved s hres]
    exact ⟨fun _ => acceptCommand_of_reject (decode_reserved hres) s, nofun⟩
  · obtain ⟨t, ht, hrow⟩ := exec_row i s
    cases hrow with
    | failed e _ hfirst =>
      exact ⟨fun _ => by rw [acceptCommand_of_decode hd, ht, hfirst]; rfl,
        fun h0 => absurd (hfirst.symm.trans h0) (raise_err_ne_zero e s)⟩
    | answered _ _ _ _ hfirst | exhausted _ _ hfirst =>
      exact ⟨fun hne => absurd hfirst hne, fun _ => ⟨_, _, hd, acceptCommand_of_decode hd s, ht, rfl⟩⟩
  · rw [firstError_of_not_wellFormed eight_le_intW hwf]
    exact ⟨fun _ => acceptCommand_of_reject hd s, nofun⟩

/-- Settles O54: an error is the response of a first cause, and later commands pass on no more of it than the sticky bit. -/
theorem errorsArePrecise : Obligations.ErrorsArePrecise := by
  unfold Obligations.ErrorsArePrecise
  intro c s t h herr
  obtain ⟨hfail, hrun⟩ := firstErrorCauseIsReported c s
  have hcause : firstError s c ≠ 0 := fun h0 => by
    obtain ⟨i, u, -, hacc, hexec, hu⟩ := hrun h0
    rw [h, hexec] at hacc
    cases hacc
    exact herr hu
  obtain rfl : t = failed s (firstError s c) := by simpa [h] using hfail hcause
  exact ⟨rfl, fun d ds => acceptAll_sticky d ds s _⟩

/-- Settles O12: an accepted word runs the command it decodes to, whose kinds the decoder has checked. -/
theorem stepRunsTheDecodedCommand : Obligations.StepRunsTheDecodedCommand := by
  unfold Obligations.StepRunsTheDecodedCommand
  intro s e es i hin hrst hvalid hdec _
  obtain ⟨haccept, -⟩ := portAcceptsExactlyValidRequests s e es hin hrst
  exact (haccept hvalid).1.trans (acceptCommand_of_decode hdec _)

end Sys2Proof.ExceptionRules
end

section
/-! # Reset, hazards and timing (70_reset_and_hazards.md)

A reset edge leaves nothing of the registers (`step_of_rst`), and a command reads neither the response before it nor the model's
count of idle edges (`exec_set_rsp_idleCount`). An idle edge changes only those two, so the edge after it ends as it would
without it. `SUBN` with a sequence number as the count subtracts 8-bit words (`stepBackward_toNat_eq_sub`). -/

namespace Sys2Proof.ResetRules

open Sys2Proof.Machine Sys2Proof.Safety Sys2Proof.Scope Sys2Proof.StateRules Sys2Proof.MemoryRules Sys2Proof.EncodingRules
  Sys2Proof.ConstructRules

/-! ## The reset edge (R105, R106) -/

theorem step_of_rst {s : State} {e : Edge} {es : List Edge} (hin : s.inputs = e :: es) (hrst : e.rst = true) :
    step s = .next (resetEdge { s with inputs := es }) := by
  obtain ⟨hedge, hdrop⟩ := currentEdge_of_inputs hin
  have hcases := step_cases s
  rw [hedge, hdrop, hrst] at hcases
  simpa using hcases

/-- Settles O55: of the state before a reset edge only the model's own fields are kept. -/
theorem resetEdgeWinsOverACommand : Obligations.ResetEdgeWinsOverACommand := by
  unfold Obligations.ResetEdgeWinsOverACommand
  intro s e es hin hrst
  rw [step_of_rst hin hrst]
  rfl

/-! ## Edges after an idle edge (R118) -/

theorem eq_of_registers {s t : State} (hit : SameIterator s t) (hsticky : s.stickyErr = t.stickyErr) (hrsp : s.rsp = t.rsp)
    (hinputs : s.inputs = t.inputs) (hidle : s.idleCount = t.idleCount) : s = t := by
  obtain ⟨hstart, hend, hcur, hloaded⟩ := hit
  obtain ⟨⟨⟩, _, _⟩ := s
  obtain ⟨⟨⟩, _, _⟩ := t
  simp_all

/-- What an idle edge writes, the response and the model's count, is passed on by a command only in that count. -/
theorem exec_set_rsp_idleCount {i : Instr} {s t : State} (h : exec i s = .next t) (r : Response) (n : Nat) :
    exec i { s with rsp := r, idleCount := n } = .next { t with idleCount := n } := by
  obtain ⟨u, v, hu, hv, hagree⟩ := exec_agree i s { s with rsp := r, idleCount := n } fun _ => ⟨rfl, rfl, rfl, rfl⟩
  obtain rfl : u = t := by simpa [h] using hu.symm
  obtain ⟨hIn, -⟩ := exec_own_fields h
  obtain ⟨hvIn, hvIdle⟩ := exec_own_fields hv
  have heq : { u with idleCount := n } = v :=
    eq_of_registers (hagree.iterator ⟨rfl, rfl, rfl, rfl⟩) (hagree.sticky rfl) (eq_of_sameAnswer hagree.answer)
      (hIn.trans hvIn.symm) hvIdle.symm
  rw [hv, heq]

theorem acceptCommand_set_rsp_idleCount {c : Command} {s t : State} (h : acceptCommand c s = .next t) (r : Response) (n : Nat) :
    acceptCommand c { s with rsp := r, idleCount := n } = .next { t with idleCount := n } := by
  cases hd : decode c with
  | error e =>
    rw [acceptCommand_of_reject hd] at h ⊢
    cases h
    rfl
  | ok i =>
    rw [acceptCommand_of_decode hd] at h ⊢
    exact exec_set_rsp_idleCount h r n

theorem step_of_reqValid {s : State} {e : Edge} {es : List Edge} (hin : s.inputs = e :: es) (hrst : e.rst = false)
    (hvalid : e.reqValid = true) : step s = acceptCommand e.command { s with inputs := es } :=
  ((portAcceptsExactlyValidRequests s e es hin hrst).1 hvalid).1

/-- A reset edge and a command edge alike end without regard to what an idle edge writes. -/
theorem step_set_rsp_idleCount {s t : State} {e : Edge} {es : List Edge} (hin : s.inputs = e :: es)
    (he : e.rst = true ∨ e.reqValid = true) (h : step s = .next t) (r : Response) (n : Nat) :
    step { s with rsp := r, idleCount := n } = .next { t with idleCount := n } := by
  cases hrst : e.rst with
  | true =>
    rw [step_of_rst hin hrst] at h
    cases h
    exact step_of_rst hin hrst
  | false =>
    have hvalid : e.reqValid = true := by simpa [hrst] using he
    rw [step_of_reqValid hin hrst hvalid] at h
    exact (step_of_reqValid (s := { s with rsp := r, idleCount := n }) hin hrst hvalid).trans
      (acceptCommand_set_rsp_idleCount h r n)

theorem runs_one (s t : State) : Runs 1 s t ↔ step s = .next t := by
  simp only [runs_succ, runs_zero, exists_eq_right]

/-- Settles O57: an idle edge writes only the response and the model's count, which the next edge does not pass on. -/
theorem idleEdgesChangeNoResult : Obligations.IdleEdgesChangeNoResult := by
  unfold Obligations.IdleEdgesChangeNoResult
  intro s q e es hin hrst hvalid he
  obtain ⟨-, hidle⟩ := portAcceptsExactlyValidRequests s q (e :: es) hin hrst
  obtain ⟨r, -, hquiet⟩ := hidle hvalid
  obtain ⟨t, ht⟩ := step_next { s with inputs := e :: es }
  have hafter := step_set_rsp_idleCount rfl he ht r (s.idleCount + 1)
  exact ⟨t, (runs_one _ t).mpr ht, (runs_succ 1 s _).mpr ⟨_, hquiet, (runs_one _ _).mpr hafter⟩⟩

/-! ## The circular distance by `SUBN` (R113) -/

theorem stepBackward_toNat_eq_sub (x y : SeqNum) : stepBackward x y.toNat = x - y := by
  apply BitVec.eq_of_toNat_eq
  have hstep := stepBackward_toNat x y.toNat
  rw [BitVec.toNat_sub]
  omega

theorem valueOf_subn_toNat (x y : SeqNum) (s : State) :
    (valueOf (.subn (seqOperand x) (intOperand (y.toNat : Int))) s).toNat = (x - y).toNat := by
  rw [valueOf_subn_intOperand, seqBits_toNat eight_le_intW, stepBackward_toNat_eq_sub]

theorem signedRep_sub (x y : SeqNum) : signedRep (x - y).toNat = circular x y := by
  rw [signedRep_toNat, signed8_eq_toInt, circular]

/-- The window of the `n` sequence numbers from `y` on holds those less than `n` ahead of `y`. -/
theorem mem_window_iff (x y : SeqNum) {n : Nat} (hn : n ≤ 256) :
    (∃ j < n, x.toNat = (y.toNat + j) % 256) ↔ (x - y).toNat < n := by
  rw [BitVec.toNat_sub]
  constructor
  · rintro ⟨j, hj, hx⟩
    omega
  · intro h
    exact ⟨_, h, by omega⟩

/-- Settles O56: the answer of `SUBN` is the difference of the two words. -/
theorem subnGivesTheCircularDistance : Obligations.SubnGivesTheCircularDistance := by
  unfold Obligations.SubnGivesTheCircularDistance
  intro x b s
  rw [valueOf_subn_toNat]
  exact ⟨signedRep_sub x b, fun n hn => mem_window_iff x b (by omega)⟩

end Sys2Proof.ResetRules
end
